-- ==== Sys2Proof/Word.lean ====
section
/-! DEFINITION. The value domain of the Intcode dispatch core, and the three parameter modes (R110).

A cell, a register and a FIFO element hold a mathematical integer of any sign and size (R5, R7, R24): Lean's `Int`, written so
throughout. There are no bits and no bytes in this machine (R8, R57), so no value is a bit vector. The key of a memory cell is a
`Nat`: cells are numbered from 0 with no upper end (R11, R50). An address while it is computed is an `Int`, since it may come
out negative (R56). -/

namespace Sys2Proof

/-- The three parameter modes (R83, R85, R110). -/
inductive Mode where
  /-- Digit 0: the raw operand is an address (R111, R114). -/
  | position
  /-- Digit 1: the raw operand is the value; reads only (R112, R116). -/
  | immediate
  /-- Digit 2: the raw operand plus the relative base is an address (R113, R115). -/
  | relative
  deriving DecidableEq, Repr

end Sys2Proof
end

