-- ==== Sys2Proof/Config.lean ====
section
/-! DEFINITION. What is fixed when an instance of the core is constructed: the parameters of R4, R5 and R6. The spec leaves no
value of the machine open ("No behaviour of the block is given any value", 93_implementation_defined.md), so there is no free
value here. -/

namespace Sys2Proof

/-- The execution policy, selected at construction; it decides what opcode 3 does (R6, R34). -/
inductive Policy where
  /-- INPUT consumes, or suspends the core when the input FIFO is empty (R161, R162). The canonical policy. -/
  | blocking
  /-- INPUT halts the core; the result is the output latch (R164). -/
  | latch
  deriving DecidableEq, Repr

/-- The parameters of one instance (R4). They are fixed at construction; no instruction, no `reset()` and no `run()` changes
them. The parameter `seed` of R4 is used once, at construction, and is the second argument of `State.construct`.
A limit that is `none` is the spec's `inf`: the normative machine has all four limits absent (R5). -/
structure Params where
  /-- `POLICY` (R6, R34); default `Blocking`. -/
  policy   : Policy := .blocking
  /-- `image` (R26, R292): the immutable snapshot of the initial cells. -/
  image    : List Int := []
  /-- `W` (R5): the number of bits of a signed cell, or none for unbounded integers. -/
  width    : Option Nat := none
  /-- `MEM_CAP` (R5, R68): the number of cells, or none. -/
  memCap   : Option Nat := none
  /-- `IN_DEPTH` (R5): the capacity of the input FIFO, or none. -/
  inDepth  : Option Nat := none
  /-- `OUT_DEPTH` (R5, R258): the capacity of the output FIFO, or none. -/
  outDepth : Option Nat := none
  /-- `TRACE_EN` (R38): whether the instruction-history trace is kept. -/
  traceEn  : Bool := true
  deriving DecidableEq, Repr

end Sys2Proof
end

