-- ==== Sys2Proof/Syntax.lean ====
section
/-! DEFINITION. The ten instructions of the opcode map R86, with the parameter mode of each operand. -/

namespace Sys2Proof

/-- A decoded instruction word: what `Decode` of R93 yields, the operation and the mode of each operand. The operand words are
not part of it: `Decode` "reads nothing but the word" (R93), the operands are whole cells taken as they stand (R87), and the
step fetches them afresh at `pc + 1`, `pc + 2`, `pc + 3` (R134). `a`, `b`, `c` are operands 1, 2, 3 (R11). -/
inductive Instr where
  /-- ADD, opcode 1, format `RRW` (R150). -/
  | add (a b c : Mode)
  /-- MUL, opcode 2, format `RRW` (R151). -/
  | mul (a b c : Mode)
  /-- INPUT, opcode 3, format `W` (R160). -/
  | input (a : Mode)
  /-- OUTPUT, opcode 4, format `R` (R170). -/
  | output (a : Mode)
  /-- JUMP-IF-TRUE, opcode 5, format `RR` (R180). -/
  | jumpIfTrue (a b : Mode)
  /-- JUMP-IF-FALSE, opcode 6, format `RR` (R181). -/
  | jumpIfFalse (a b : Mode)
  /-- LESS-THAN, opcode 7, format `RRW` (R190). -/
  | lessThan (a b c : Mode)
  /-- EQUALS, opcode 8, format `RRW` (R191). -/
  | equals (a b c : Mode)
  /-- ADJUST-BASE, opcode 9, format `R` (R200). -/
  | adjustBase (a : Mode)
  /-- HALT, opcode 99, format `Z` (R201). -/
  | halt
  deriving DecidableEq, Repr

end Sys2Proof
end

