-- ==== Sys2Proof/WellFormed.lean ====
section
/-! DEFINITION. Which terms of `Instr` stand for a legal instruction word: a write operand is never immediate (R85, R90, R116). -/

namespace Sys2Proof

/-- A mode a write operand may have: 0 or 2 (R85's column "legal `C`", and "legal `A`" of format `W`). -/
def Mode.writable : Mode → Bool
  | .position  => true
  | .immediate => false
  | .relative  => true

/-- The instruction has a legal word: the mode of its write operand, if it has one, is not immediate (R90). -/
def Instr.wellFormed : Instr → Bool
  | .add _ _ c      => c.writable
  | .mul _ _ c      => c.writable
  | .input a        => a.writable
  | .output _       => true
  | .jumpIfTrue _ _  => true
  | .jumpIfFalse _ _ => true
  | .lessThan _ _ c => c.writable
  | .equals _ _ c   => c.writable
  | .adjustBase _   => true
  | .halt           => true

end Sys2Proof
end

