-- ==== Sys2Proof/Decode.lean ====
section
/-! DEFINITION. The decoder of R93, total on every integer and rejecting by cause, and after it the encoder of R83 and R96. -/

namespace Sys2Proof

/-- The five formats of R85: which operands an instruction has, and which of them is written. -/
inductive Format where
  | rrw | rr | w | r | z
  deriving DecidableEq, Repr

/-- The ten operations, without their modes (R86). -/
inductive Opcode where
  | add | mul | input | output | jumpIfTrue | jumpIfFalse | lessThan | equals | adjustBase | halt
  deriving DecidableEq, Repr

/-- Why a word does not decode: the five causes of class `DecodeError` (R250, codes 1 to 5). -/
inductive DecodeCause where
  /-- The two low digits are no opcode (R88, R251). -/
  | unknownOpcode
  /-- The mode digit of an operand the opcode has is 3 to 9 (R89, R252). -/
  | illegalMode
  /-- The mode digit of a write operand is 1 (R90, R253). -/
  | immediateWriteTarget
  /-- A digit that no operand of the opcode uses is not 0 (R91, R254). -/
  | reservedDigit
  /-- The word is negative (R84, R255). -/
  | negativeWord
  deriving DecidableEq, Repr

/-- What `Decode` answers (R93): a decoded instruction or a cause. -/
inductive Decoded where
  | instr (i : Instr)
  | illegal (c : DecodeCause)
  deriving DecidableEq, Repr

/-- `dig(w, i)` of R8: the decimal digit of weight `10^i`. -/
def dig (w i : Nat) : Nat := w / 10 ^ i % 10

/-- `digs(w)[hi:lo]` of R8: the number written by the decimal digits `hi` down to `lo`. -/
def digs (w hi lo : Nat) : Nat := w / 10 ^ lo % 10 ^ (hi - lo + 1)

/-- The opcode map, from number to operation (R86). -/
def opcodeOf : Nat → Option Opcode
  | 1 => some .add
  | 2 => some .mul
  | 3 => some .input
  | 4 => some .output
  | 5 => some .jumpIfTrue
  | 6 => some .jumpIfFalse
  | 7 => some .lessThan
  | 8 => some .equals
  | 9 => some .adjustBase
  | 99 => some .halt
  | _ => none

/-- The opcode map, from operation to number (R86). -/
def Opcode.number : Opcode → Nat
  | .add => 1
  | .mul => 2
  | .input => 3
  | .output => 4
  | .jumpIfTrue => 5
  | .jumpIfFalse => 6
  | .lessThan => 7
  | .equals => 8
  | .adjustBase => 9
  | .halt => 99

/-- The column "format" of R86. -/
def Opcode.format : Opcode → Format
  | .add | .mul | .lessThan | .equals => .rrw
  | .jumpIfTrue | .jumpIfFalse => .rr
  | .input => .w
  | .output | .adjustBase => .r
  | .halt => .z

/-- The operand count of a format (R85, R93). -/
def Format.operands : Format → Nat
  | .rrw => 3
  | .rr => 2
  | .w => 1
  | .r => 1
  | .z => 0

/-- The number of the operand that a format writes, if it writes one (R85): it is always the last. -/
def Format.writeOperand : Format → Option Nat
  | .rrw => some 3
  | .w => some 1
  | .rr | .r | .z => none

/-- The mode a digit names; only asked for digits 0, 1 and 2 (R93 has rejected the others by then). -/
def modeOf : Nat → Mode
  | 0 => .position
  | 1 => .immediate
  | _ => .relative

/-- The digit of a mode (R85, R96). -/
def Mode.digit : Mode → Nat
  | .position => 0
  | .immediate => 1
  | .relative => 2

/-- An operation with the modes of operands 1, 2 and 3; a mode the operation has no operand for is not used. -/
def instrOf (o : Opcode) (a b c : Mode) : Instr :=
  match o with
  | .add => .add a b c
  | .mul => .mul a b c
  | .input => .input a
  | .output => .output a
  | .jumpIfTrue => .jumpIfTrue a b
  | .jumpIfFalse => .jumpIfFalse a b
  | .lessThan => .lessThan a b c
  | .equals => .equals a b c
  | .adjustBase => .adjustBase a
  | .halt => .halt

/-- The mode digit of operand `k`: `dig(word, k + 1)` (R82). -/
def modeDigit (n k : Nat) : Nat := dig n (k + 1)

/-- Some digit that the format reserves is not 0: a digit of weight `10^5` or above, or the mode digit of an operand
`k` in `n+1 .. 3` (R91, R93). -/
def reservedDigitSet (f : Format) (n : Nat) : Bool :=
  n / 100000 != 0 || [1, 2, 3].any fun k => decide (f.operands < k) && modeDigit n k != 0

/-- Some operand the format has carries a mode digit above 2 (R89, R93). -/
def illegalModeSet (f : Format) (n : Nat) : Bool :=
  [1, 2, 3].any fun k => decide (k ≤ f.operands) && decide (2 < modeDigit n k)

/-- The format's write operand carries mode digit 1 (R90, R93). -/
def immediateTargetSet (f : Format) (n : Nat) : Bool :=
  match f.writeOperand with
  | some k => modeDigit n k == 1
  | none => false

/-- `Decode` of R93 on a word that is not negative, once its opcode is known: the checks in R93's order. -/
def decodeFields (o : Opcode) (n : Nat) : Decoded :=
  if reservedDigitSet o.format n then .illegal .reservedDigit
  else if illegalModeSet o.format n then .illegal .illegalMode
  else if immediateTargetSet o.format n then .illegal .immediateWriteTarget
  else .instr (instrOf o (modeOf (modeDigit n 1)) (modeOf (modeDigit n 2)) (modeOf (modeDigit n 3)))

/-- `Decode` of R93 on a word that is not negative. -/
def decodeNat (n : Nat) : Decoded :=
  match opcodeOf (digs n 1 0) with
  | none => .illegal .unknownOpcode
  | some o => decodeFields o n

/-- `Decode(word)` of R93: total on the integers, reading nothing but the word. -/
def decode (w : Int) : Decoded :=
  if w < 0 then .illegal .negativeWord else decodeNat w.toNat

/-- The operation of an instruction. -/
def Instr.opcode : Instr → Opcode
  | .add _ _ _ => .add
  | .mul _ _ _ => .mul
  | .input _ => .input
  | .output _ => .output
  | .jumpIfTrue _ _ => .jumpIfTrue
  | .jumpIfFalse _ _ => .jumpIfFalse
  | .lessThan _ _ _ => .lessThan
  | .equals _ _ _ => .equals
  | .adjustBase _ => .adjustBase
  | .halt => .halt

/-- The length of an instruction in cells: 1 plus its operand count (R80). -/
def Instr.length (i : Instr) : Nat := 1 + i.opcode.format.operands

/-- The digits `A`, `B`, `C` of R83 for an instruction; the digit of an operand it does not have is 0 (R91). -/
def Instr.modeDigits : Instr → Nat × Nat × Nat
  | .add a b c => (a.digit, b.digit, c.digit)
  | .mul a b c => (a.digit, b.digit, c.digit)
  | .input a => (a.digit, 0, 0)
  | .output a => (a.digit, 0, 0)
  | .jumpIfTrue a b => (a.digit, b.digit, 0)
  | .jumpIfFalse a b => (a.digit, b.digit, 0)
  | .lessThan a b c => (a.digit, b.digit, c.digit)
  | .equals a b c => (a.digit, b.digit, c.digit)
  | .adjustBase a => (a.digit, 0, 0)
  | .halt => (0, 0, 0)

/-- The instruction word `opcode + 100*A + 1000*B + 10000*C` (R83, R96). -/
def encode (i : Instr) : Int :=
  ((i.opcode.number + 100 * i.modeDigits.1 + 1000 * i.modeDigits.2.1 + 10000 * i.modeDigits.2.2 : Nat) : Int)

/-- The cells of an instruction in ascending address order: its word, then its operand words as they stand (R80, R87). -/
def encodeCells (i : Instr) (operands : List Int) : List Int := encode i :: operands

/-- The instruction the decoder reads from a row of `spec/opcode_table.json`. The table's rows are decimal: they name no bits,
and `w` is the instruction word as a number (`match_value` plus the mode digits; log 9); its operand words are cells of their
own, which decoding never looks at (R93), so `nbits` plays no part. -/
def decodeTableWord (_nbits w : Nat) : Option Instr :=
  match decode (w : Int) with
  | .instr i => some i
  | .illegal _ => none

end Sys2Proof
end

