-- ==== Sys2Proof/Machine/State.lean ====
section
/-! DEFINITION. The whole state of one instance of the core (R20), as plain data, and the state after reset (R39). -/

namespace Sys2Proof.Machine

/-- The dispatch FSM's state register (R31). -/
inductive Fsm where
  | ready | running | halted | blocked | faulted
  deriving DecidableEq, Repr

/-- A fault cause (R250): the five of class `DecodeError`, and the one cause each of the classes `AddressError` and
`ResourceLimit`. -/
inductive Cause where
  /-- Class `DecodeError`, codes 1 to 5. -/
  | decode (c : DecodeCause)
  /-- Class `AddressError`, code 6 (R256). -/
  | negativeAddress
  /-- Class `ResourceLimit`, code 7 (R258); only with a finite limit. -/
  | resourceLimit
  deriving DecidableEq, Repr

/-- The fault record (R260). -/
structure FaultRecord where
  cause  : Cause
  /-- The value of `pc` when the step began. -/
  pc     : Int
  /-- The instruction word, absent when the fault was at fetch. -/
  word   : Option Int
  /-- `word mod 100`, absent when there is no word or it is negative. -/
  opcode : Option Nat
  /-- The offending address, for address faults. -/
  addr   : Option Int
  deriving DecidableEq, Repr

/-- Memory as data: the cells that are not 0, by strictly rising address (`Memory.wf`). A cell holds a whole integer and is
never cut into bytes (R57), so the value of a pair is an `Int`. -/
abbrev Memory := List (Nat × Int)

/-- What an unlisted address reads as: 0 (R24, R26, R52). -/
def Memory.unlisted : Int := 0

/-- One instance of the core: the ten pieces of R20's table, and the instance's parameters (R4, R26, R34). -/
structure State where
  /-- R21: the program counter. -/
  pc     : Int
  /-- R22: the relative base. -/
  rb     : Int
  /-- R24: the cells. -/
  mem    : Memory
  /-- R25: the hidden length of the store. -/
  mlen   : Nat
  /-- R27: the input FIFO, head first. -/
  inq    : List Int
  /-- R28: the output FIFO, head first. -/
  outq   : List Int
  /-- R31: the dispatch FSM's state. -/
  fsm    : Fsm
  /-- R32: the fault record, absent until a fault is raised. -/
  fault  : Option FaultRecord
  /-- R33: the output latch, absent until the first OUTPUT retires. -/
  latch  : Option Int
  /-- R38: the instruction-history trace, oldest entry first: address and instruction word. -/
  trace  : List (Int × Int)
  /-- R4, R26, R34: `POLICY`, `image` and the other parameters, fixed at construction. -/
  params : Params
  deriving DecidableEq, Repr

/-- The state after reset (R39, R291) of an instance whose parameters have R4's defaults. `image` has no default in R4; the
empty image stands here (log 4), which R292 allows. Every other value is the one R39 states. -/
def State.reset : State where
  pc     := 0
  rb     := 0
  mem    := []
  mlen   := 0
  inq    := []
  outq   := []
  fsm    := .ready
  fault  := none
  latch  := none
  trace  := []
  params := {}

/-- Why a step of the model stops outside the machine's own FSM: it never does, so there is no constructor. Every fault of the
spec is a NEXT state with `fsm = Faulted` and the record of R260 in `State.fault` (R270): the machine itself describes the
entry, and the host sees it as a status, not as an end of the model. Safe: nothing is cut short. -/
inductive Fault where
  deriving DecidableEq, Repr

/-- Why an instruction is not run. -/
inductive Refusal where
  /-- Raised by an arm of `exec` whose instruction has no meaning yet; no arm does so in this model. Safe. -/
  | notModelled (mnemonic : String)
  deriving DecidableEq, Repr

/-- What a meaning answers. -/
abbrev Result := Host.Outcome State Fault Refusal

end Sys2Proof.Machine
end

