-- ==== Sys2Proof/Machine/Ops.lean ====
section
/-! DEFINITION. The shared operations of the core: memory (R52, R53), the trace (R38), fault entry (R270), the suspension and the
halt (R162, R164, R201), and the guarded commit of a step (R137). -/

namespace Sys2Proof

/-- `v` is a signed integer of `W` bits, that is, lies in `[-2^(W-1), 2^(W-1)-1]`; every integer is, when `W` is `inf` (R5). -/
def Params.fits (p : Params) (v : Int) : Bool :=
  match p.width with
  | none => true
  | some w => decide (-((2 ^ (w - 1) : Nat) : Int) ≤ v) && decide (v < ((2 ^ (w - 1) : Nat) : Int))

/-- The address `a` lies below `MEM_CAP`; every address does, when it is `inf` (R5, R68). -/
def Params.below (p : Params) (a : Int) : Bool :=
  match p.memCap with
  | none => true
  | some c => decide (a < (c : Int))

end Sys2Proof

namespace Sys2Proof.Machine

/-! ## The growable memory -/

/-- The content of the cell at `a`: 0 for a cell that is not listed (R24, R52). -/
def Memory.load : Memory → Nat → Int
  | [], _ => Memory.unlisted
  | (k, v) :: m, a => if k = a then v else Memory.load m a

/-- The memory with `v` in the cell at `a` and every other cell as before (R53). Storing what an unlisted cell reads as takes
the cell off the list, so that equal memories are equal lists. -/
def Memory.store : Memory → Nat → Int → Memory
  | [], a, v => if v = Memory.unlisted then [] else [(a, v)]
  | (k, u) :: m, a, v =>
    if a < k then (if v = Memory.unlisted then (k, u) :: m else (a, v) :: (k, u) :: m)
    else if a = k then (if v = Memory.unlisted then m else (a, v) :: m)
    else (k, u) :: Memory.store m a v

/-- Every listed address is `lo` or above, they rise strictly, and no listed cell holds what an unlisted one reads as. -/
def Memory.wfFrom : Nat → Memory → Bool
  | _, [] => true
  | lo, (k, v) :: m => decide (lo ≤ k) && v != Memory.unlisted && Memory.wfFrom (k + 1) m

/-- The one canonical form of a memory. -/
def Memory.wf (m : Memory) : Bool := Memory.wfFrom 0 m

/-- The memory that holds `cells` from address `base` upwards and 0 elsewhere. -/
def Memory.ofCells : Nat → List Int → Memory
  | _, [] => []
  | base, v :: vs =>
    if v = Memory.unlisted then Memory.ofCells (base + 1) vs else (base, v) :: Memory.ofCells (base + 1) vs

/-- The memory after construction and after reset: `mem(a) = image[a]` below `len(image)`, 0 elsewhere (R26, R292). -/
def Memory.ofImage (image : List Int) : Memory := Memory.ofCells 0 image

/-! ## The limits of R5 -/

/-- The output FIFO can take one more element (R5, R258). -/
def State.outRoom (s : State) : Bool :=
  match s.params.outDepth with
  | none => true
  | some d => decide (s.outq.length < d)

/-- `v` is in the instance's integer domain (R5). -/
def State.fits (s : State) (v : Int) : Bool := s.params.fits v

/-! ## Faults -/

/-- What a `raise` carries (R9): the cause, and for an address fault the offending address (R260). -/
structure Trap where
  cause : Cause
  addr  : Option Int := none
  deriving DecidableEq, Repr

/-- A limit of R5 would be exceeded by something other than an address; the record has no address (R258, R260; log 6). -/
def Trap.limit : Trap where
  cause := .resourceLimit

/-- Whether dereferencing `a` raises: a negative address always does (R56), one at or above a finite `MEM_CAP` too (R68). -/
def State.addrTrap (s : State) (a : Int) : Option Trap :=
  if a < 0 then some { cause := .negativeAddress, addr := some a }
  else if s.params.below a then none
  else some { cause := .resourceLimit, addr := some a }

/-- The instruction word of the step, `mem(pc)`, or none where no word can be fetched (R131, R260). -/
def State.instrWord (s : State) : Option Int :=
  match s.addrTrap s.pc with
  | some _ => none
  | none => some (s.mem.load s.pc.toNat)

/-- What a retiring, halting or faulting step adds to the trace (R38): the address and the word as fetched; nothing when no word
was fetched or `TRACE_EN` is false. -/
def State.traceEntry (s : State) : List (Int × Int) :=
  match s.instrWord with
  | some w => if s.params.traceEn then [(s.pc, w)] else []
  | none => []

/-- `append(trace, (pc, word))` of R141 and R270. -/
def State.logged (s : State) : State := { s with trace := s.trace ++ s.traceEntry }

/-- `word mod 100` for a word that is not negative (R255, R260). -/
def opcodeField (w : Int) : Option Nat := if w < 0 then none else some (digs w.toNat 1 0)

/-- The fault record of R260 for the step that began at `s.pc`. -/
def State.faultRecord (s : State) (t : Trap) : FaultRecord where
  cause  := t.cause
  pc     := s.pc
  word   := s.instrWord
  opcode := s.instrWord.bind opcodeField
  addr   := t.addr

/-- FAULT ENTRY (R270), the core's one exception entry: the record, the trace entry if the word was fetched, and
`fsm <- Faulted`. Nothing of the instruction is committed (R271) and control goes nowhere inside the machine. There is no
return from a fault (R272): only the host's `reset()` leaves `Faulted`. -/
def State.raise (s : State) (t : Trap) : State :=
  { s.logged with fault := some (s.faultRecord t), fsm := .faulted }

/-! ## Accesses -/

/-- What a phase of a step answers: a value and the state its reads leave, or the trap it meets and the state its completed
reads leave (a faulting step keeps the growth of `mlen`, R271). -/
inductive Reply (α : Type) where
  | ok (a : α) (s : State)
  | trap (t : Trap) (s : State)

/-- The next phase, if the phase before met no trap. -/
def Reply.andThen {α β : Type} (r : Reply α) (f : α → State → Reply β) : Reply β :=
  match r with
  | .ok a s => f a s
  | .trap t s => .trap t s

/-- The end of a step: the commit, or fault entry. -/
def Reply.finish {α : Type} (r : Reply α) (commit : α → State → Result) : Result :=
  match r with
  | .ok a s => commit a s
  | .trap t s => .next (s.raise t)

/-- `mlen <- max(mlen, a + 1)` (R25, R52, R53). -/
def State.grow (s : State) (a : Nat) : State := { s with mlen := max s.mlen (a + 1) }

/-- `MemRead(a, 1)` of R52. -/
def memRead (a : Int) (s : State) : Reply Int :=
  match s.addrTrap a with
  | some t => .trap t s
  | none => .ok (s.mem.load a.toNat) (s.grow a.toNat)

/-- The commit of `MemWrite(a, 1, v)` of R53; the address was checked when it was resolved (R136). -/
def State.memWrite (s : State) (a : Nat) (v : Int) : State := { s.grow a with mem := s.mem.store a v }

/-! ## The ends of a step -/

/-- The core blocks: `fsm <- Blocked`, and nothing else (R162). -/
def State.suspend (s : State) : State := { s with fsm := .blocked }

/-- The core halts: one trace entry and `fsm <- Halted`; `pc` is not advanced (R164, R201). -/
def State.halt (s : State) : State := { s.logged with fsm := .halted }

/-- The instruction retires with the new `pc`: one trace entry for the old one, and `fsm` stays `Running` (R137, R138). -/
def State.retire (s : State) (pc : Int) : State := { s.logged with pc := pc }

/-- The commit `t` where the limits of R5 allow it, and the fault `ResourceLimit` in its place where they do not (R258). -/
def State.commit (s : State) (allowed : Bool) (t : State) : Result :=
  if allowed then .next t else .next (s.raise Trap.limit)

/-- Phase 7 of a storing instruction of length `len` (R137): one memory write and the `pc`. The trace entry carries the word as
fetched, so it is made before the write (R66). -/
def State.stored (s : State) (a : Nat) (v : Int) (len : Int) : State :=
  { s.logged.memWrite a v with pc := s.pc + len }

/-- Phase 7 of ADD, MUL, LESS-THAN and EQUALS: all have length 4 (R138). -/
def State.commitStore (s : State) (a : Nat) (v : Int) : Result :=
  s.commit (s.fits v && s.fits (s.pc + 4)) (s.stored a v 4)

/-- Phase 7 of a jump to `pc` (R137, R182): no check but that of a finite `W`. -/
def State.commitJump (s : State) (pc : Int) : Result := s.commit (s.fits pc) (s.retire pc)

end Sys2Proof.Machine
end

