-- ==== Sys2Proof/Machine/Operands.lean ====
section
/-! DEFINITION. The operand fetch (R134) and the operand resolver (R110 to R119), and the two put together for each of the
formats of R85 that have operands. -/

namespace Sys2Proof.Machine

/-- Phase 4 for one operand: `raw_k <- MemRead(pc + k, 1)` (R134). -/
def fetchOperand (k : Nat) (s : State) : Reply Int := memRead (s.pc + k) s

/-- The effective address `rb + raw` of a mode-2 operand (R113, R115): an exact sum, with the `rb` of the start of the step.
With a finite `W` a sum outside the range raises `ResourceLimit` (R258); the range is looked at before the sign (log 6). -/
def relativeAddr (raw : Int) (s : State) : Reply Int :=
  if s.fits (s.rb + raw) then .ok (s.rb + raw) s else .trap Trap.limit s

/-- `ResolveRead(m, raw)` of R119: at most one data read, never a second one through its result (R117). -/
def resolveRead (m : Mode) (raw : Int) (s : State) : Reply Int :=
  match m with
  | .position => memRead raw s
  | .immediate => .ok raw s
  | .relative => (relativeAddr raw s).andThen memRead

/-- The check of a write address, made when it is resolved (R53, R118, R136); no cell is read (R117). -/
def checkTarget (a : Int) (s : State) : Reply Nat :=
  match s.addrTrap a with
  | some t => .trap t s
  | none => .ok a.toNat s

/-- `ResolveWrite(m, raw)` of R119. Mode 1 never comes from a decoded word; R116 lets it raise `ImmediateWriteTarget` here. -/
def resolveWrite (m : Mode) (raw : Int) (s : State) : Reply Nat :=
  match m with
  | .position => checkTarget raw s
  | .immediate => .trap { cause := .decode .immediateWriteTarget } s
  | .relative => (relativeAddr raw s).andThen checkTarget

/-- Phases 4 to 6 of format `RRW`: three operand words fetched, then two reads and one write target resolved, in operand
order (R134, R135, R136). -/
def operandsRRW (a b c : Mode) (s : State) : Reply (Int × Int × Nat) :=
  (fetchOperand 1 s).andThen fun raw1 s =>
  (fetchOperand 2 s).andThen fun raw2 s =>
  (fetchOperand 3 s).andThen fun raw3 s =>
  (resolveRead a raw1 s).andThen fun val1 s =>
  (resolveRead b raw2 s).andThen fun val2 s =>
  (resolveWrite c raw3 s).andThen fun adr3 s =>
  .ok (val1, val2, adr3) s

/-- Phases 4 and 5 of format `RR`: both operands are resolved, whether or not the jump uses the second (R135). -/
def operandsRR (a b : Mode) (s : State) : Reply (Int × Int) :=
  (fetchOperand 1 s).andThen fun raw1 s =>
  (fetchOperand 2 s).andThen fun raw2 s =>
  (resolveRead a raw1 s).andThen fun val1 s =>
  (resolveRead b raw2 s).andThen fun val2 s =>
  .ok (val1, val2) s

/-- Phases 4 and 5 of format `R`. -/
def operandsR (a : Mode) (s : State) : Reply Int :=
  (fetchOperand 1 s).andThen fun raw1 s => resolveRead a raw1 s

/-- Phases 4 and 6 of format `W`. -/
def operandsW (a : Mode) (s : State) : Reply Nat :=
  (fetchOperand 1 s).andThen fun raw1 s => resolveWrite a raw1 s

end Sys2Proof.Machine
end

