-- ==== Sys2Proof/Machine/Flags.lean ====
section
/-! DEFINITION. The machine has no flags and no condition codes (R35). What takes their place: the 0 or 1 that a comparison stores
into a cell (R190, R191), and the two tests a jump makes of its first operand (R180, R181). -/

namespace Sys2Proof.Machine

/-- The cell value of a truth value: exactly 1 or 0 (R190, R191). -/
def cellOfBool (b : Bool) : Int := if b then 1 else 0

/-- The signed mathematical order (R152, R190). -/
def lessCell (x y : Int) : Int := cellOfBool (decide (x < y))

/-- Equality of integers at every magnitude (R191). -/
def equalCell (x y : Int) : Int := cellOfBool (decide (x = y))

/-- "True" is any value that is not 0, negative ones included (R180). -/
def conditionTrue (x : Int) : Bool := x != 0

/-- The `pc` after a jump whose test came out as `taken` (R180, R181, R183): the target is absolute (R182), and the fall-through
is the word after the jump's two operands. -/
def jumpTarget (taken : Bool) (target : Int) (s : State) : Int := if taken then target else s.pc + 3

end Sys2Proof.Machine
end

