-- ==== Sys2Proof/Machine/Arithmetic.lean ====
section
/-! DEFINITION. Opcodes 1 and 2: ADD (R150) and MUL (R151). -/

namespace Sys2Proof.Machine

/-- ADD: `mem[c] = val(a) + val(b)`, the exact sum (R150, R152). -/
def execAdd (a b c : Mode) (s : State) : Result :=
  (operandsRRW a b c s).finish fun v s => s.commitStore v.2.2 (v.1 + v.2.1)

/-- MUL: `mem[c] = val(a) * val(b)`, the exact product (R151, R152). -/
def execMul (a b c : Mode) (s : State) : Result :=
  (operandsRRW a b c s).finish fun v s => s.commitStore v.2.2 (v.1 * v.2.1)

end Sys2Proof.Machine
end

