-- ==== Sys2Proof/Machine/BaseHalt.lean ====
section
/-! DEFINITION. Opcodes 9 and 99: ADJUST-BASE (R200) and HALT (R201). -/

namespace Sys2Proof.Machine

/-- ADJUST-BASE: `rb <- rb + val(a)`; a mode-2 operand is read through the old base (R200). -/
def execAdjustBase (a : Mode) (s : State) : Result :=
  (operandsR a s).finish fun v s =>
    s.commit (s.fits (s.rb + v) && s.fits (s.pc + 2)) { s.retire (s.pc + 2) with rb := s.rb + v }

/-- HALT: `fsm <- Halted`; `pc` still names the cell that holds 99 (R201). -/
def execHalt (s : State) : Result := .next s.halt

end Sys2Proof.Machine
end

