-- ==== Sys2Proof/Machine/Compare.lean ====
section
/-! DEFINITION. Opcodes 7 and 8: LESS-THAN (R190) and EQUALS (R191). -/

namespace Sys2Proof.Machine

/-- LESS-THAN: `mem[c] = 1 if val(a) < val(b) else 0` (R190). -/
def execLessThan (a b c : Mode) (s : State) : Result :=
  (operandsRRW a b c s).finish fun v s => s.commitStore v.2.2 (lessCell v.1 v.2.1)

/-- EQUALS: `mem[c] = 1 if val(a) = val(b) else 0` (R191). -/
def execEquals (a b c : Mode) (s : State) : Result :=
  (operandsRRW a b c s).finish fun v s => s.commitStore v.2.2 (equalCell v.1 v.2.1)

end Sys2Proof.Machine
end

