-- ==== Sys2Proof/Machine/InputOutput.lean ====
section
/-! DEFINITION. Opcodes 3 and 4: INPUT (R160 to R166) and OUTPUT (R170 to R172). -/

namespace Sys2Proof.Machine

/-- INPUT under `Blocking` with `v` at the head of the input FIFO and `rest` behind it (R161). A target that does not resolve
faults and pops nothing (R271). -/
def consumeInput (a : Mode) (v : Int) (rest : List Int) (s : State) : Result :=
  (operandsW a s).finish fun adr s =>
    s.commit (s.fits v && s.fits (s.pc + 2)) { s.stored adr v 2 with inq := rest }

/-- INPUT (R160). Under `Latch` it halts, whatever the FIFO holds (R164). Under `Blocking` an empty FIFO suspends the core
before the operand is fetched or the target resolved (R133, R162), and otherwise the head is consumed (R161). -/
def execInput (a : Mode) (s : State) : Result :=
  match s.params.policy with
  | .latch => .next s.halt
  | .blocking =>
    match s.inq with
    | [] => .next s.suspend
    | v :: rest => consumeInput a v rest s

/-- OUTPUT: the value goes to the back of the output FIFO and into the latch (R170, R171). -/
def execOutput (a : Mode) (s : State) : Result :=
  (operandsR a s).finish fun v s =>
    s.commit (s.outRoom && s.fits (s.pc + 2)) { s.retire (s.pc + 2) with outq := s.outq ++ [v], latch := some v }

end Sys2Proof.Machine
end

