-- ==== Sys2Proof/Machine/Jumps.lean ====
section
/-! DEFINITION. Opcodes 5 and 6: JUMP-IF-TRUE (R180) and JUMP-IF-FALSE (R181). -/

namespace Sys2Proof.Machine

/-- JUMP-IF-TRUE: `pc <- (val_1 != 0) ? val_2 : pc + 3` (R180). -/
def execJumpIfTrue (a b : Mode) (s : State) : Result :=
  (operandsRR a b s).finish fun v s => s.commitJump (jumpTarget (conditionTrue v.1) v.2 s)

/-- JUMP-IF-FALSE: `pc <- (val_1 = 0) ? val_2 : pc + 3` (R181). -/
def execJumpIfFalse (a b : Mode) (s : State) : Result :=
  (operandsRR a b s).finish fun v s => s.commitJump (jumpTarget (!conditionTrue v.1) v.2 s)

end Sys2Proof.Machine
end

