-- ==== Sys2Proof/Machine/Dispatch.lean ====
section
/-! DEFINITION. Phases 3 to 7 of a step (R133 to R137) for a decoded instruction: one arm per instruction of R86. -/

namespace Sys2Proof.Machine

def exec (i : Instr) (s : State) : Host.Outcome State Fault Refusal :=
  match i with
  | .add a b c => Sys2Proof.Machine.execAdd a b c s
  | .mul a b c => Sys2Proof.Machine.execMul a b c s
  | .input a => Sys2Proof.Machine.execInput a s
  | .output a => Sys2Proof.Machine.execOutput a s
  | .jumpIfTrue a b => Sys2Proof.Machine.execJumpIfTrue a b s
  | .jumpIfFalse a b => Sys2Proof.Machine.execJumpIfFalse a b s
  | .lessThan a b c => Sys2Proof.Machine.execLessThan a b c s
  | .equals a b c => Sys2Proof.Machine.execEquals a b c s
  | .adjustBase a => Sys2Proof.Machine.execAdjustBase a s
  | .halt => Sys2Proof.Machine.execHalt s

end Sys2Proof.Machine
end

