-- ==== Sys2Proof/Machine/Fetch.lean ====
section
/-! DEFINITION. Phases 1 and 2 of a step (R131, R132), what an idle core does (R139), and how a program's word is put in place. -/

namespace Sys2Proof.Machine

/-- Phase 2: `Decode(word)`; a cause it returns is raised before any operand word is fetched (R132). -/
def decodePhase (w : Int) (s : State) : Reply Instr :=
  match decode w with
  | .instr i => .ok i s
  | .illegal c => .trap { cause := .decode c } s

/-- Phases 1 and 2: fetch the word at `pc` and decode it (R131, R132). -/
def fetchDecode (s : State) : Reply Instr := (memRead s.pc s).andThen decodePhase

/-- A core that is not `Running` takes no step: it stays as it is until the host acts (R139, R285; log 1). -/
def idle (s : State) : Result := .next s

/-- The core set up so that its very next step runs the instruction word `w` with operand words 0: the four cells from `pc`
hold `w, 0, 0, 0`, and `fsm` is `Running`, as inside a `run()` (R212; log 4). A negative `pc`, which names no cell, becomes 0. -/
def State.placeInstr (s : State) (w : Int) : State :=
  let p := s.pc.toNat
  { (((s.memWrite p w).memWrite (p + 1) 0).memWrite (p + 2) 0).memWrite (p + 3) 0 with pc := (p : Int), fsm := .running }

end Sys2Proof.Machine
end

