-- ==== Sys2Proof/Machine/Step.lean ====
section
/-! DEFINITION. One step of the core: `Step()` of R141 while `fsm = Running`, and nothing in any other state (R139). -/

namespace Sys2Proof.Machine

/-- `Step()` of R141 in `Running`; a core in `Ready`, `Halted`, `Blocked` or `Faulted` is idle (R139). -/
def step (s : State) : Host.Outcome State Fault Refusal :=
  match s.fsm with
  | .running => (fetchDecode s).finish exec
  | .ready => idle s
  | .halted => idle s
  | .blocked => idle s
  | .faulted => idle s

/-- The state in which the next step fetches and runs the instruction word `w` of an opcode-table row (log 4, log 9). -/
def State.withFetchWord (s : State) (_nbits w : Nat) : State := s.placeInstr (w : Int)

end Sys2Proof.Machine
end

