-- ==== Sys2Proof/Machine/HostInterface.lean ====
section
/-! DEFINITION. Everything the host can do to a core (R220 to R230, R290 to R296), and the run loop (R210 to R218). Every operation
is a transaction between runs: none is possible while the core is `Running` (R225). -/

namespace Sys2Proof.Machine

/-- Why a host operation is turned away at the boundary; it then changes nothing (R5, R225). -/
inductive HostRefusal where
  /-- The core is `Running`: `run()` has not returned (R225). -/
  | whileRunning
  /-- An image cell, a seed or a pushed value is outside the range of a finite `W` (R5). -/
  | outOfRange
  /-- The input FIFO has a finite depth and cannot take the values (R5). -/
  | fifoFull
  /-- The image is longer than a finite `MEM_CAP` (R5). -/
  | imageTooLong
  /-- `W` is 0, which is no width of a signed cell (R4; log 6). -/
  | noWidth
  deriving DecidableEq, Repr

/-- What a host operation answers. -/
inductive HostAnswer (α : Type) where
  | accepted (a : α)
  | refused (r : HostRefusal)
  deriving DecidableEq, Repr

/-- The next operation of a sequence, if the one before it was accepted. -/
def HostAnswer.andThen {α β : Type} (h : HostAnswer α) (f : α → HostAnswer β) : HostAnswer β :=
  match h with
  | .accepted a => f a
  | .refused r => .refused r

/-- The values that `run()` returns (R36, R216). -/
inductive Status where
  | halted | blocked | faulted
  deriving DecidableEq, Repr

/-- The status that an FSM state reports; `Ready` and `Running` are never returned (R36). -/
def Fsm.status : Fsm → Option Status
  | .ready => none
  | .running => none
  | .halted => some .halted
  | .blocked => some .blocked
  | .faulted => some .faulted

/-- The state after `reset()` of an instance with parameters `p`: R39's middle column, R291. -/
def State.initial (p : Params) : State :=
  { State.reset with mem := Memory.ofImage p.image, mlen := p.image.length, params := p }

/-- `n` elements are no more than a capacity allows; every number is, when it is `inf` (R5). -/
def withinCap (cap : Option Nat) (n : Nat) : Bool :=
  match cap with
  | none => true
  | some d => decide (n ≤ d)

/-- The operation, in every state but `Running` (R225). -/
def State.between {α : Type} (s : State) (h : HostAnswer α) : HostAnswer α :=
  if s.fsm = .running then .refused .whileRunning else h

/-- `new(program, input)` with the parameters `p`, whose `image` is the program (R220, R290). -/
def State.construct (p : Params) (seed : List Int) : HostAnswer State :=
  if p.width = some 0 then .refused .noWidth
  else if !(p.image.all p.fits && seed.all p.fits) then .refused .outOfRange
  else if !withinCap p.memCap p.image.length then .refused .imageTooLong
  else if !withinCap p.inDepth seed.length then .refused .fifoFull
  else .accepted { State.initial p with inq := seed }

/-- `reset()` (R221, R291, R295): back to the image; the construction-time seed is not put back. -/
def State.hostReset (s : State) : HostAnswer State := s.between (.accepted (State.initial s.params))

/-- `push(vs)` (R222): the values go to the back of the input FIFO, all of them or none (R5; log 6). -/
def State.push (s : State) (vs : List Int) : HostAnswer State :=
  s.between <|
    if !vs.all s.fits then .refused .outOfRange
    else if !withinCap s.params.inDepth (s.inq.length + vs.length) then .refused .fifoFull
    else .accepted { s with inq := s.inq ++ vs }

/-- `pop()` (R223): the head of the output FIFO, or nothing when it is empty; the latch stays. -/
def State.pop (s : State) : HostAnswer (Option Int × State) :=
  s.between (.accepted (s.outq.head?, { s with outq := s.outq.tail }))

/-- Drain (R223): all of the output FIFO, in order. -/
def State.drain (s : State) : HostAnswer (List Int × State) :=
  s.between (.accepted (s.outq, { s with outq := [] }))

/-- The start of `run()` (R212): from `Ready` or `Blocked` the core goes to `Running`; in `Halted` and `Faulted` the call is a
no-op (R213, R214). -/
def State.go (s : State) : HostAnswer State :=
  s.between (.accepted (match s.fsm with
    | .ready => { s with fsm := .running }
    | .blocked => { s with fsm := .running }
    | .running => s
    | .halted => s
    | .faulted => s))

/-- What the host may look at between runs (R224, R230: the ports `status`, `diag`, `result` and `dbg`), with the hidden length
that R37 lists among what a host can observe (R25: by a dump of the store). -/
structure Observation where
  mlen  : Nat
  fsm   : Fsm
  fault : Option FaultRecord
  trace : List (Int × Int)
  latch : Option Int
  pc    : Int
  rb    : Int
  deriving DecidableEq, Repr

/-- Observe (R37, R224): it changes nothing. -/
def State.observe (s : State) : HostAnswer Observation :=
  s.between (.accepted
    { mlen := s.mlen, fsm := s.fsm, fault := s.fault, trace := s.trace, latch := s.latch, pc := s.pc, rb := s.rb })

/-- Observe one cell (R224): no `MemRead`, so `mlen` does not grow. -/
def State.observeCell (s : State) (a : Nat) : HostAnswer Int := s.between (.accepted (s.mem.load a))

/-- How an invocation of `run()` stands after some number of steps. -/
inductive RunResult where
  /-- It has returned this status, and left this state (R217). -/
  | returned (st : Status) (s : State)
  /-- The core is still `Running`; nothing in the core bounds a run (R218). -/
  | unfinished (s : State)
  /-- The model stopped outside the machine's FSM, which it never does. -/
  | stopped
  deriving DecidableEq, Repr

/-- `while fsm = Running: Step()` (R212), cut off after `fuel` steps: the executor's bound, not the machine's (R218). -/
def runLoop : Nat → State → RunResult
  | fuel, s =>
    match s.fsm.status with
    | some st => .returned st s
    | none =>
      match fuel with
      | 0 => .unfinished s
      | n + 1 =>
        match step s with
        | .next t => runLoop n t
        | .fault _ => .stopped
        | .refused _ => .stopped

/-- `run()` (R212). -/
def State.run (s : State) (fuel : Nat) : HostAnswer RunResult :=
  s.go.andThen fun t => .accepted (runLoop fuel t)

/-- `run(new_input)` is `push(new_input)` followed by `run()`, in every state (R211). -/
def State.runWith (s : State) (vs : List Int) (fuel : Nat) : HostAnswer RunResult :=
  (s.push vs).andThen fun t => t.run fuel

/-- The host operations on a constructed core (R226: there are no others). -/
inductive HostOp where
  | reset
  | push (vs : List Int)
  | pop
  | drain
  | go
  | observe
  deriving DecidableEq, Repr

/-- The state a host operation leaves. -/
def hostApply (o : HostOp) (s : State) : HostAnswer State :=
  match o with
  | .reset => s.hostReset
  | .push vs => s.push vs
  | .pop => s.pop.andThen fun r => .accepted r.2
  | .drain => s.drain.andThen fun r => .accepted r.2
  | .go => s.go
  | .observe => s.observe.andThen fun _ => .accepted s

end Sys2Proof.Machine
end

