-- ==== Sys2Proof/Machine/Composition.lean ====
section
/-! DEFINITION. Several cores joined by shared FIFOs (R236 to R243), as far as the rules bind the core (R2, R3): the wiring, one
core running at a time, and the exact deadlock condition. The external scheduler itself is out of scope (R3). -/

namespace Sys2Proof.Machine

/-- One core of a composition, and the numbers of the FIFO it consumes from and of the FIFO it produces to. The contents stand
in `Net.fifos` alone, so the core's own two queues are empty here: a shared FIFO is one sequence (R30, R236). -/
structure Node where
  core    : State
  inFifo  : Nat
  outFifo : Nat
  deriving DecidableEq, Repr

/-- A composition: its cores and its FIFOs, each FIFO head first. The topology is fixed (R236). -/
structure Net where
  nodes : List Node
  fifos : List (List Int)
  deriving DecidableEq, Repr

/-- Why an operation on a composition is turned away; it then changes nothing. -/
inductive NetRefusal where
  /-- There is no core of that number. -/
  | noSuchCore
  /-- The core turns the operation away. -/
  | core (r : HostRefusal)
  /-- The wiring is none the spec allows (R238, R304): a FIFO with two producers or two consumers, a FIFO that does not exist, or
  a core wired to itself (log 11). -/
  | badWiring
  /-- The FIFO already has its one producer, or its one consumer, inside the composition (R238). -/
  | secondParty
  /-- The run did not return within the executor's fuel, so no other core may start (R237). -/
  | stillRunning
  deriving DecidableEq, Repr

/-- What an operation on a composition answers. -/
inductive NetAnswer (α : Type) where
  | done (a : α)
  | refused (r : NetRefusal)
  deriving DecidableEq, Repr

/-- An answer with its value replaced. -/
def NetAnswer.map {α β : Type} (f : α → β) : NetAnswer α → NetAnswer β
  | .done a => .done (f a)
  | .refused r => .refused r

/-- The next operation, if the one before it was done. -/
def NetAnswer.andThen {α β : Type} (h : NetAnswer α) (f : α → NetAnswer β) : NetAnswer β :=
  match h with
  | .done a => f a
  | .refused r => .refused r

/-- The contents of FIFO number `f`. -/
def Net.fifo (n : Net) (f : Nat) : List Int := n.fifos.getD f []

/-- Which FIFOs each core is attached to (R236). -/
def Net.topology (n : Net) : List (Nat × Nat) := n.nodes.map fun d => (d.inFifo, d.outFifo)

/-- No number stands twice. -/
def distinct : List Nat → Bool
  | [] => true
  | x :: xs => !xs.contains x && distinct xs

/-- A wiring the spec allows: every FIFO exists and has at most one producer and one consumer (R238). A core wired to itself is
left out (log 11). -/
def Net.wired (n : Net) : Bool :=
  n.nodes.all (fun d => decide (d.inFifo < n.fifos.length) && decide (d.outFifo < n.fifos.length) &&
    d.inFifo != d.outFifo && d.core.inq.isEmpty && d.core.outq.isEmpty) &&
  distinct (n.nodes.map Node.inFifo) && distinct (n.nodes.map Node.outFifo)

/-- What FIFO number `f` holds when the cores are joined: what its consumer already has, then what its producer has put out. Of
cores joined before their first run that is the consumer's seed (R220; log 13). -/
def joinedFifo (nodes : List Node) (f : Nat) : List Int :=
  (nodes.filter fun d => d.inFifo == f).flatMap (fun d => d.core.inq) ++
    (nodes.filter fun d => d.outFifo == f).flatMap (fun d => d.core.outq)

/-- A core whose queues have been handed over to the composition. -/
def Node.joined (d : Node) : Node := { d with core := { d.core with inq := [], outq := [] } }

/-- Separately constructed cores, between runs, joined by `count` FIFOs (R236, R241); a wiring the spec does not allow is refused
(R238, R304). The topology is fixed from here on: no operation below changes it. DESIGN CHOICE (log 13): joining looks at no depth and no width.
R5's list of refused host actions is silent on it, so a FIFO whose joined contents exceed its producer's `OUT_DEPTH` is accepted;
an OUTPUT of the producer before the FIFO is below that depth faults. -/
def Net.wire (nodes : List Node) (count : Nat) : NetAnswer Net :=
  let n : Net := { nodes := nodes.map Node.joined, fifos := (List.range count).map (joinedFifo nodes) }
  if nodes.any fun d => d.core.fsm == .running then .refused (.core .whileRunning)
  else if n.wired then .done n
  else .refused .badWiring

/-- The core of a node as it stands while it runs, with the contents of its two FIFOs. -/
def Net.view (n : Net) (d : Node) : State := { d.core with inq := n.fifo d.inFifo, outq := n.fifo d.outFifo }

/-- The composition after core `k` has become `t`. -/
def Net.putBack (n : Net) (k : Nat) (d : Node) (t : State) : Net where
  nodes := n.nodes.set k { d with core := { t with inq := [], outq := [] } }
  fifos := (n.fifos.set d.inFifo t.inq).set d.outFifo t.outq

/-- An operation of one core, carried out in the composition. A composition that is not wired as the spec allows makes no
transition at all (R238, R304; U11 of 93_implementation_defined.md). -/
def Net.atCore {α : Type} (n : Net) (k : Nat) (f : Node → State → NetAnswer (α × State)) : NetAnswer (α × Net) :=
  if n.wired then
    match n.nodes[k]? with
    | none => .refused .noSuchCore
    | some d => (f d (n.view d)).map fun r => (r.1, n.putBack k d r.2)
  else .refused .badWiring

/-- A host operation's answer as an answer about the composition. -/
def HostAnswer.toNet {α : Type} : HostAnswer α → NetAnswer α
  | .accepted a => .done a
  | .refused r => .refused (.core r)

/-- The answer to a host operation that gives the host no value. -/
def HostAnswer.onlyState (h : HostAnswer State) : HostAnswer (Unit × State) := h.andThen fun t => .accepted ((), t)

/-- `run()` of core `k`, and the status it returns: it runs until it halts, blocks or faults before another starts (R237). -/
def Net.runCore (n : Net) (k fuel : Nat) : NetAnswer (Status × Net) :=
  n.atCore k fun _ s =>
    match s.run fuel with
    | .accepted (.returned st t) => .done (st, t)
    | .accepted (.unfinished _) => .refused .stillRunning
    | .accepted .stopped => .refused .stillRunning
    | .refused r => .refused (.core r)

/-- `reset()` of core `k`: it empties both FIFOs the core is attached to, shared or not (R40, R296). -/
def Net.resetCore (n : Net) (k : Nat) : NetAnswer Net := (n.atCore k fun _ s => s.hostReset.onlyState.toNet).map Prod.snd

/-- External input for core `k` (R243), where no core of the composition produces to its input FIFO (R238). -/
def Net.pushInput (n : Net) (k : Nat) (vs : List Int) : NetAnswer Net :=
  (n.atCore k fun d s =>
    if (n.nodes.map Node.outFifo).contains d.inFifo then .refused .secondParty
    else (s.push vs).onlyState.toNet).map Prod.snd

/-- The host takes something from core `k`'s output, where no core of the composition consumes it (R238). -/
def Net.fromOutput {α : Type} (n : Net) (k : Nat) (f : State → HostAnswer (α × State)) : NetAnswer (α × Net) :=
  n.atCore k fun d s =>
    if (n.nodes.map Node.inFifo).contains d.outFifo then .refused .secondParty else (f s).toNet

/-- The host pops one value of core `k`'s output, if there is one (R223, R243). -/
def Net.popOutput (n : Net) (k : Nat) : NetAnswer (Option Int × Net) := n.fromOutput k State.pop

/-- The host drains core `k`'s output and is given all of it, in order (R223, R243). -/
def Net.drainOutput (n : Net) (k : Nat) : NetAnswer (List Int × Net) := n.fromOutput k State.drain

/-- The host observes core `k` (R224). -/
def Net.observeCore (n : Net) (k : Nat) : NetAnswer (Observation × Net) :=
  n.atCore k fun _ s => (s.observe.andThen fun o => .accepted (o, s)).toNet

/-- A full round of the scheduler (R237, R239): every core is run once, in the order of their numbers; the statuses they return. -/
def Net.roundFrom : List Nat → Nat → Net → NetAnswer (List Status × Net)
  | [], _, n => .done ([], n)
  | k :: ks, fuel, n =>
    (n.runCore k fuel).andThen fun r =>
      (Net.roundFrom ks fuel r.2).map fun q => (r.1 :: q.1, q.2)

/-- A full round over all the cores. -/
def Net.round (n : Net) (fuel : Nat) : NetAnswer (List Status × Net) := Net.roundFrom (List.range n.nodes.length) fuel n

/-- The exact condition of R240: every core is `Halted`, `Faulted`, or `Blocked` with its input FIFO empty. -/
def Net.deadlocked (n : Net) : Bool :=
  n.nodes.all fun d =>
    d.core.fsm == .halted || d.core.fsm == .faulted || (d.core.fsm == .blocked && (n.fifo d.inFifo).isEmpty)

end Sys2Proof.Machine
end

