-- ==== Sys2Proof/Safety.lean ====
section
/-! DEFINITION. The vocabulary of the claims: what an operand of the current instruction is worth and where it points, written
without the step's phases; what a step may read; and the invariant of a core. -/

namespace Sys2Proof.Machine

/-- The operand word `k` of the instruction at `pc` (R80, R87). -/
def State.operandWord (s : State) (k : Nat) : Int := s.mem.load (s.pc + k).toNat

/-- The effective address of an operand: none for an immediate one (R111 to R115). -/
def State.effAddr (s : State) (m : Mode) (raw : Int) : Option Int :=
  match m with
  | .position => some raw
  | .immediate => none
  | .relative => some (s.rb + raw)

/-- The value of a read operand: the raw word itself, or the cell its effective address names (R111 to R113). -/
def State.value (s : State) (m : Mode) (raw : Int) : Int :=
  match s.effAddr m raw with
  | none => raw
  | some a => s.mem.load a.toNat

/-- The cell a write operand names (R114, R115). -/
def State.target (s : State) (m : Mode) (raw : Int) : Nat := ((s.effAddr m raw).getD 0).toNat

/-- `a` is an address of the instance's memory: not negative, and below `MEM_CAP` if that is finite (R56, R68). -/
def State.inMemory (s : State) (a : Int) : Bool := decide (0 ≤ a) && s.params.below a

/-- Resolving the operand's address raises nothing: it is in memory, and a relative sum is in the domain (R118, R258). -/
def State.addressable (s : State) (m : Mode) (raw : Int) : Bool :=
  match m with
  | .position => s.inMemory raw
  | .immediate => true
  | .relative => s.fits (s.rb + raw) && s.inMemory (s.rb + raw)

/-- Operand words 1 to `n` can be fetched (R134). -/
def State.fetchable (s : State) (n : Nat) : Bool := decide (0 ≤ s.pc) && s.params.below (s.pc + n)

/-- The cell a read operand makes the step read, if it reads one. -/
def State.reads (s : State) (m : Mode) (raw : Int) : List Nat :=
  match s.effAddr m raw with
  | none => []
  | some a => [a.toNat]

/-- The length of the store after accesses at these addresses, in any order (R25). -/
def State.lengthAfter (s : State) (as : List Nat) : Nat := as.foldl (fun n a => max n (a + 1)) s.mlen

/-- The addresses of operand words 1 to `n`. -/
def State.operandAddrs (s : State) (n : Nat) : List Nat := (List.range n).map fun k => (s.pc + (k + 1 : Nat)).toNat

/-- The trace with the entry of the instruction at `pc` (R38). -/
def State.traceAfter (s : State) : List (Int × Int) :=
  if s.params.traceEn then s.trace ++ [(s.pc, s.mem.load s.pc.toNat)] else s.trace

/-- The next state of a storing instruction with operand modes `a`, `b`, `c` that stores `v` (R137, R142): the cell, the `pc`,
the trace, and the length grown by the instruction's own accesses; nothing else. -/
def State.afterStore (s : State) (a b c : Mode) (v : Int) : State :=
  { s with
    pc := s.pc + 4
    mem := s.mem.store (s.target c (s.operandWord 3)) v
    mlen := s.lengthAfter (s.operandAddrs 3 ++ s.reads a (s.operandWord 1) ++ s.reads b (s.operandWord 2) ++
      [s.target c (s.operandWord 3)])
    trace := s.traceAfter }

/-- The state after fault entry for a step whose word was fetched and whose accesses before the fault were `as` (R270, R271). -/
def State.afterFault (s : State) (cause : Cause) (addr : Option Int) (as : List Nat) : State :=
  { s with
    mlen := s.lengthAfter as
    fsm := .faulted
    trace := s.traceAfter
    fault := some
      { cause := cause
        pc := s.pc
        word := some (s.mem.load s.pc.toNat)
        opcode := if s.mem.load s.pc.toNat < 0 then none else some ((s.mem.load s.pc.toNat).toNat % 100)
        addr := addr } }

/-- Format `RRW` resolves: its operand words can be fetched, its operands are addressable, and its target is not immediate. -/
def State.resolvesRRW (s : State) (a b c : Mode) : Prop :=
  s.fetchable 3 = true ∧ s.addressable a (s.operandWord 1) = true ∧ s.addressable b (s.operandWord 2) = true ∧
  s.addressable c (s.operandWord 3) = true ∧ c.writable = true

/-- Format `RR` resolves. -/
def State.resolvesRR (s : State) (a b : Mode) : Prop :=
  s.fetchable 2 = true ∧ s.addressable a (s.operandWord 1) = true ∧ s.addressable b (s.operandWord 2) = true

/-- Format `R` resolves. -/
def State.resolvesR (s : State) (a : Mode) : Prop :=
  s.fetchable 1 = true ∧ s.addressable a (s.operandWord 1) = true

/-- Format `W` resolves. -/
def State.resolvesW (s : State) (a : Mode) : Prop :=
  s.fetchable 1 = true ∧ s.addressable a (s.operandWord 1) = true ∧ a.writable = true

/-- The operand's effective address is the negative number `x` (R118). -/
def State.negativeOperand (s : State) (m : Mode) (raw x : Int) : Prop :=
  s.effAddr m raw = some x ∧ x < 0 ∧ (m = .relative → s.fits x = true)

/-- Resolving the operand exceeds a finite limit: its relative sum is outside the domain (and the record then has no address), or
its effective address is in the domain, not negative, and at or above `MEM_CAP` (and the record has it) (R5, R68, R258; log 6). -/
def State.limitedOperand (s : State) (m : Mode) (raw : Int) (addr : Option Int) : Prop :=
  (m = .relative ∧ s.fits (s.rb + raw) = false ∧ addr = none) ∨
  ∃ x, s.effAddr m raw = some x ∧ (m = .relative → s.fits x = true) ∧ 0 ≤ x ∧ s.params.below x = false ∧ addr = some x

/-- The same instance under another policy. -/
def State.withPolicy (s : State) (p : Policy) : State := { s with params := { s.params with policy := p } }

/-- The same instance with the limits of R5 taken away. -/
def State.unlimited (s : State) : State :=
  { s with params := { s.params with width := none, memCap := none, inDepth := none, outDepth := none } }

/-- All four limits of R5 are absent: the normative machine. -/
def State.unbounded (s : State) : Prop :=
  s.params.width = none ∧ s.params.memCap = none ∧ s.params.inDepth = none ∧ s.params.outDepth = none

/-- The word at `pc` can be fetched and decodes to `i`. -/
def State.holds (s : State) (i : Instr) : Prop :=
  s.inMemory s.pc = true ∧ decode (s.mem.load s.pc.toNat) = .instr i

/-- What holds of every core that was constructed and driven through its interface. -/
structure State.Inv (s : State) : Prop where
  /-- Memory is in its one canonical form. -/
  memory_wf : s.mem.wf = true
  /-- R25: `mem(a) = 0` for all `a >= mlen`. -/
  beyond_length : ∀ a, s.mlen ≤ a → s.mem.load a = 0
  /-- R68: no cell at or above a finite `MEM_CAP` was ever reached. -/
  length_cap : withinCap s.params.memCap s.mlen = true
  /-- R26, R5: the image was accepted at construction. -/
  image_cap : withinCap s.params.memCap s.params.image.length = true
  image_fits : ∀ v ∈ s.params.image, s.fits v = true
  width_pos : s.params.width ≠ some 0
  /-- R5: every cell, register and queue element is in the integer domain. -/
  pc_fits : s.fits s.pc = true
  rb_fits : s.fits s.rb = true
  cell_fits : ∀ a, s.fits (s.mem.load a) = true
  inq_fits : ∀ v ∈ s.inq, s.fits v = true
  outq_fits : ∀ v ∈ s.outq, s.fits v = true
  /-- R5: the FIFOs keep to their capacities. -/
  inq_depth : withinCap s.params.inDepth s.inq.length = true
  outq_depth : withinCap s.params.outDepth s.outq.length = true
  /-- R32, R273, R275: there is a fault record exactly in `Faulted`. -/
  fault_iff : s.fault.isSome = true ↔ s.fsm = .faulted
  /-- R217, R260: `pc` still names the instruction that could not be executed. -/
  fault_pc : ∀ f, s.fault = some f → f.pc = s.pc
  /-- R202, R217: a `Halted` core stands at the instruction that halted it. -/
  halted_at : s.fsm = .halted →
    s.holds .halt ∨ (s.params.policy = .latch ∧ ∃ a, s.holds (.input a))
  /-- R165, R217, R275: a `Blocked` core stands at an INPUT, under `Blocking`. -/
  blocked_at : s.fsm = .blocked → s.params.policy = .blocking ∧ ∃ a, s.holds (.input a)
  /-- R38: with `TRACE_EN = false` the trace is always empty. -/
  trace_off : s.params.traceEn = false → s.trace = []

end Sys2Proof.Machine
end

