-- ==== Sys2Proof/Certificates/Slice0/Obligations.lean ====
section
/-! DEFINITION. The statements for the provers. Each is a claim about the machine, under the numbered rules of spec/ its docstring
names; limits of R5 are kept general throughout (a limit that is absent asks nothing). -/

open Sys2Proof Sys2Proof.Machine

namespace Sys2Proof.Claims

/-- The legal instruction words as R94 lists them, family by family. -/
def legalWords : List Int :=
  ([1, 2, 7, 8].flatMap fun o => [0, 1, 2].flatMap fun a => [0, 1, 2].flatMap fun b => [0, 2].map fun c =>
    10000 * c + 1000 * b + 100 * a + o) ++
  ([5, 6].flatMap fun o => [0, 1, 2].flatMap fun a => [0, 1, 2].map fun b => 1000 * b + 100 * a + o) ++
  [3, 203] ++ ([4, 9].flatMap fun o => [0, 1, 2].map fun a => 100 * a + o) ++ [99]

/-- The operand count of an opcode number (R85, R86). -/
def operandCount (op : Int) : Nat :=
  if op ∈ [1, 2, 7, 8] then 3 else if op ∈ [5, 6] then 2 else if op ∈ [3, 4, 9] then 1 else 0

/-- The mode digit of operand `k` of a word, by the formula of R82. -/
def modeField (w : Int) (k : Nat) : Int := w / 10 ^ (k + 1) % 10

/-- The next state of a jump to `p`: the `pc`, the trace and the length, nothing else (R137, R142). -/
def afterJump (s : State) (a b : Mode) (p : Int) : State :=
  { s with
    pc := p
    mlen := s.lengthAfter (s.operandAddrs 2 ++ s.reads a (s.operandWord 1) ++ s.reads b (s.operandWord 2))
    trace := s.traceAfter }

/-- The state after fault entry for a negative operand address `x`, with the accesses `as` before it (R256, R270, R271). -/
def addressFault (s : State) (x : Int) (as : List Nat) : State := s.afterFault .negativeAddress (some x) as

/-- What the step at `s` adds to `rb`: the operand's value of an ADJUST-BASE that retires, and 0 otherwise. -/
def baseDelta (s : State) : Int :=
  match s.fsm, s.instrWord, step s with
  | .running, some w, .next t =>
    match decode w with
    | .instr (.adjustBase a) => if t.fsm = .faulted then 0 else s.value a (s.operandWord 1)
    | _ => 0
  | _, _, _ => 0

/-- Two of the cores have one input FIFO, or two have one output FIFO. -/
def twoParties (nodes : List Node) : Prop :=
  ∃ (i j : Nat) (d e : Node), i ≠ j ∧ nodes[i]? = some d ∧ nodes[j]? = some e ∧ (d.inFifo = e.inFifo ∨ d.outFifo = e.outFifo)

/-- What can happen to a core: a step, or a host operation between runs (R301). -/
inductive Event where
  | step
  | host (o : HostOp)
  deriving DecidableEq, Repr

/-- The state an event leaves, if it is not refused. -/
def Event.apply (e : Event) (s : State) : Option State :=
  match e with
  | .step => match Sys2Proof.Machine.step s with | .next t => some t | .fault _ => none | .refused _ => none
  | .host o => match hostApply o s with | .accepted t => some t | .refused _ => none

/-- The state after a sequence of events, if none is refused. -/
def drive : List Event → State → Option State
  | [], s => some s
  | e :: es, s => (e.apply s).bind (drive es)

/-- The sum of the ADJUST-BASE deltas along a sequence of events. -/
def deltas : List Event → State → Int
  | [], _ => 0
  | e :: es, s => (if e = .step then baseDelta s else 0) + ((e.apply s).map (deltas es)).getD 0

end Sys2Proof.Claims

open Sys2Proof.Claims

/-! ## Encoding -/

/-- R95: the words the spec reads from the document's own programs. -/
def Obligations.SpecExampleWordsDecode : Prop :=
  decode 109 = .instr (.adjustBase .immediate) ∧ decode 204 = .instr (.output .relative) ∧
  decode 1001 = .instr (.add .position .immediate .position) ∧
  decode 1008 = .instr (.equals .position .immediate .position) ∧
  decode 1006 = .instr (.jumpIfFalse .position .immediate) ∧
  decode 1102 = .instr (.mul .immediate .immediate .position) ∧
  decode 104 = .instr (.output .immediate) ∧ decode 3 = .instr (.input .position) ∧
  decode 8 = .instr (.equals .position .position .position) ∧ decode 4 = .instr (.output .position) ∧
  decode 99 = .instr .halt

/-- R83, R93, R96: a word decodes to `i` exactly when `i` is well formed and the word is its encoding. -/
def Obligations.DecodeAndEncodeAgree : Prop :=
  ∀ (w : Int) (i : Instr), decode w = .instr i ↔ i.wellFormed = true ∧ encode i = w

/-- R94: the words that decode are exactly those of the list, and there are 99 of them. -/
def Obligations.ExactlyNinetyNineLegalWords : Prop :=
  legalWords.length = 99 ∧ legalWords.Nodup ∧ ∀ w : Int, w ∈ legalWords ↔ ∃ i, decode w = .instr i

/-- R93 (R84, R88 to R91): `Decode` makes its checks in this order, and the first that fails gives the cause. -/
def Obligations.DecodeMakesItsChecksInOrder : Prop :=
  ∀ w : Int,
    if w < 0 then decode w = .illegal .negativeWord
    else if w % 100 ∉ [1, 2, 3, 4, 5, 6, 7, 8, 9, 99] then decode w = .illegal .unknownOpcode
    else if w / 100000 ≠ 0 ∨ ∃ k ∈ [1, 2, 3], operandCount (w % 100) < k ∧ modeField w k ≠ 0 then
      decode w = .illegal .reservedDigit
    else if ∃ k ∈ [1, 2, 3], k ≤ operandCount (w % 100) ∧ 2 < modeField w k then decode w = .illegal .illegalMode
    else if (w % 100 ∈ [1, 2, 7, 8] ∧ modeField w 3 = 1) ∨ (w % 100 = 3 ∧ modeField w 1 = 1) then
      decode w = .illegal .immediateWriteTarget
    else ∃ i, decode w = .instr i ∧ (i.opcode.number : Int) = w % 100 ∧ i.opcode.format.operands = operandCount (w % 100) ∧
      (i.modeDigits.1 : Int) = modeField w 1 ∧ (i.modeDigits.2.1 : Int) = modeField w 2 ∧
      (i.modeDigits.2.2 : Int) = modeField w 3

/-! ## The step -/

/-- R130 to R132, R141: when the word at `pc` can be fetched and decodes to `i`, a step of a `Running` core is `exec` of `i` in
the state with the length grown by the fetch; the step adds nothing else around it. -/
def Obligations.StepRunsTheDecodedInstruction : Prop :=
  ∀ (s : State) (i : Instr), s.fsm = .running → s.holds i → step s = exec i (s.grow s.pc.toNat)

/-- R131, R256, R270: a step at a negative `pc` fetches nothing; the record has no word and no trace entry is made. -/
def Obligations.FetchAtNegativeAddressFaults : Prop :=
  ∀ s : State, s.fsm = .running → s.pc < 0 →
    step s = .next { s with
      fsm := .faulted
      fault := some { cause := .negativeAddress, pc := s.pc, word := none, opcode := none, addr := some s.pc } }

/-- R132, R251 to R255, R270: a fetched word that does not decode faults with its cause before any operand is fetched and before
the FIFOs are looked at. -/
def Obligations.IllegalWordFaultsBeforeOperands : Prop :=
  ∀ (s : State) (c : DecodeCause), s.fsm = .running → s.inMemory s.pc = true →
    decode (s.mem.load s.pc.toNat) = .illegal c → step s = .next (s.afterFault (.decode c) none [s.pc.toNat])

/-- R130, R144: a step always answers a next state; the machine never stops outside its own FSM. -/
def Obligations.StepAlwaysAnswersNext : Prop := ∀ s : State, ∃ t, step s = .next t

/-! ## What each instruction does -/

/-- R150, R151: where the operands resolve, ADD and MUL store the exact sum and the exact product, and complete. -/
def Obligations.ArithmeticStoresExactResult : Prop :=
  ∀ (s : State) (a b c : Mode), s.resolvesRRW a b c → s.fits (s.pc + 4) = true →
    (s.fits (s.value a (s.operandWord 1) + s.value b (s.operandWord 2)) = true →
      exec (.add a b c) s =
        .next (s.afterStore a b c (s.value a (s.operandWord 1) + s.value b (s.operandWord 2)))) ∧
    (s.fits (s.value a (s.operandWord 1) * s.value b (s.operandWord 2)) = true →
      exec (.mul a b c) s =
        .next (s.afterStore a b c (s.value a (s.operandWord 1) * s.value b (s.operandWord 2))))

/-- R190, R191, R192: where the operands resolve, LESS-THAN and EQUALS store exactly 0 or 1 by the relation of the two values,
and complete. -/
def Obligations.ComparisonStoresZeroOrOne : Prop :=
  ∀ (s : State) (a b c : Mode), s.resolvesRRW a b c → s.fits (s.pc + 4) = true → s.fits 0 = true → s.fits 1 = true →
    (s.value a (s.operandWord 1) < s.value b (s.operandWord 2) →
      exec (.lessThan a b c) s = .next (s.afterStore a b c 1) ∧
      exec (.equals a b c) s = .next (s.afterStore a b c 0)) ∧
    (s.value a (s.operandWord 1) = s.value b (s.operandWord 2) →
      exec (.lessThan a b c) s = .next (s.afterStore a b c 0) ∧
      exec (.equals a b c) s = .next (s.afterStore a b c 1)) ∧
    (s.value b (s.operandWord 2) < s.value a (s.operandWord 1) →
      exec (.lessThan a b c) s = .next (s.afterStore a b c 0) ∧
      exec (.equals a b c) s = .next (s.afterStore a b c 0))

/-- R180, R181, R183: the four outcomes of the jumps by the condition's value; the target is absolute and not checked (R182). -/
def Obligations.JumpsGoByTheirCondition : Prop :=
  ∀ (s : State) (a b : Mode), s.resolvesRR a b →
    s.fits (s.pc + 3) = true → s.fits (s.value b (s.operandWord 2)) = true →
    (s.value a (s.operandWord 1) = 0 →
      exec (.jumpIfTrue a b) s = .next (afterJump s a b (s.pc + 3)) ∧
      exec (.jumpIfFalse a b) s = .next (afterJump s a b (s.value b (s.operandWord 2)))) ∧
    (s.value a (s.operandWord 1) ≠ 0 →
      exec (.jumpIfTrue a b) s = .next (afterJump s a b (s.value b (s.operandWord 2))) ∧
      exec (.jumpIfFalse a b) s = .next (afterJump s a b (s.pc + 3)))

/-- R161: INPUT under `Blocking` with data present stores the oldest value and pops it; with a negative target it faults and the
queue is not popped. -/
def Obligations.InputConsumesTheOldestValue : Prop :=
  ∀ (s : State) (a : Mode) (v : Int) (rest : List Int), s.params.policy = .blocking → s.inq = v :: rest →
    (s.resolvesW a → s.fits v = true → s.fits (s.pc + 2) = true →
      exec (.input a) s = .next { s with
        pc := s.pc + 2
        mem := s.mem.store (s.target a (s.operandWord 1)) v
        mlen := s.lengthAfter (s.operandAddrs 1 ++ [s.target a (s.operandWord 1)])
        inq := rest
        trace := s.traceAfter }) ∧
    (∀ x : Int, s.fetchable 1 = true → s.negativeOperand a (s.operandWord 1) x →
      exec (.input a) s = .next (s.afterFault .negativeAddress (some x) (s.operandAddrs 1)))

/-- R162: INPUT under `Blocking` with an empty queue only blocks, whatever its target would be. -/
def Obligations.StarvedInputOnlyBlocks : Prop :=
  ∀ (s : State) (a : Mode), s.params.policy = .blocking → s.inq = [] →
    exec (.input a) s = .next { s with fsm := .blocked }

/-- R164: INPUT under `Latch` halts, whatever the queue holds; the trace entry and the FSM are all that changes. -/
def Obligations.LatchInputHalts : Prop :=
  ∀ (s : State) (a : Mode), s.params.policy = .latch → s.inMemory s.pc = true →
    exec (.input a) s = .next { s with fsm := .halted, trace := s.traceAfter }

/-- R170, R171: OUTPUT appends its value to the output queue, puts it into the latch, and completes. -/
def Obligations.OutputAppendsAndLatches : Prop :=
  ∀ (s : State) (a : Mode), s.resolvesR a → s.outRoom = true → s.fits (s.pc + 2) = true →
    exec (.output a) s = .next { s with
      pc := s.pc + 2
      outq := s.outq ++ [s.value a (s.operandWord 1)]
      latch := some (s.value a (s.operandWord 1))
      mlen := s.lengthAfter (s.operandAddrs 1 ++ s.reads a (s.operandWord 1))
      trace := s.traceAfter }

/-- R200: ADJUST-BASE adds its value to `rb`, a relative operand being read through the old `rb`, and completes. -/
def Obligations.AdjustBaseAddsItsValue : Prop :=
  ∀ (s : State) (a : Mode), s.resolvesR a → s.fits (s.rb + s.value a (s.operandWord 1)) = true → s.fits (s.pc + 2) = true →
    exec (.adjustBase a) s = .next { s with
      pc := s.pc + 2
      rb := s.rb + s.value a (s.operandWord 1)
      mlen := s.lengthAfter (s.operandAddrs 1 ++ s.reads a (s.operandWord 1))
      trace := s.traceAfter }

/-- R201: HALT halts and leaves `pc` at its own word; every other word ending in 99 has a reserved digit set. -/
def Obligations.HaltStopsAtItsWord : Prop :=
  (∀ s : State, s.inMemory s.pc = true → exec .halt s = .next { s with fsm := .halted, trace := s.traceAfter }) ∧
  ∀ w : Int, 0 ≤ w → w % 100 = 99 → decode w = if w = 99 then .instr .halt else .illegal .reservedDigit

/-! ## Operand faults and limits -/

/-- R265 (7) to (9), R118, R271: a step reports the first negative address its operands meet, in operand order, and commits
nothing; a jump's second operand faults even when the jump would not be taken (R180). -/
def Obligations.FirstNegativeOperandFaults : Prop :=
  ∀ (s : State) (a b c : Mode) (x : Int),
    (s.fetchable 3 = true → ∀ i ∈ [Instr.add a b c, .mul a b c, .lessThan a b c, .equals a b c],
      (s.negativeOperand a (s.operandWord 1) x → exec i s = .next (addressFault s x (s.operandAddrs 3))) ∧
      (s.addressable a (s.operandWord 1) = true → s.negativeOperand b (s.operandWord 2) x →
        exec i s = .next (addressFault s x (s.operandAddrs 3 ++ s.reads a (s.operandWord 1)))) ∧
      (s.addressable a (s.operandWord 1) = true → s.addressable b (s.operandWord 2) = true →
        s.negativeOperand c (s.operandWord 3) x →
        exec i s = .next (addressFault s x
          (s.operandAddrs 3 ++ s.reads a (s.operandWord 1) ++ s.reads b (s.operandWord 2))))) ∧
    (s.fetchable 2 = true → ∀ i ∈ [Instr.jumpIfTrue a b, .jumpIfFalse a b],
      (s.negativeOperand a (s.operandWord 1) x → exec i s = .next (addressFault s x (s.operandAddrs 2))) ∧
      (s.addressable a (s.operandWord 1) = true → s.negativeOperand b (s.operandWord 2) x →
        exec i s = .next (addressFault s x (s.operandAddrs 2 ++ s.reads a (s.operandWord 1))))) ∧
    (s.fetchable 1 = true → ∀ i ∈ [Instr.output a, .adjustBase a],
      s.negativeOperand a (s.operandWord 1) x → exec i s = .next (addressFault s x (s.operandAddrs 1)))

/-- R271: a faulting step commits nothing of its instruction. -/
def Obligations.FaultsArePrecise : Prop :=
  ∀ s t : State, s.fsm = .running → step s = .next t → t.fsm = .faulted →
    t.pc = s.pc ∧ t.rb = s.rb ∧ t.mem = s.mem ∧ t.inq = s.inq ∧ t.outq = s.outq ∧ t.latch = s.latch ∧
    t.params = s.params ∧ s.mlen ≤ t.mlen ∧ (∃ f, t.fault = some f ∧ f.pc = s.pc) ∧
    t.trace = if s.inMemory s.pc then s.traceAfter else s.trace

/-- R5, R258: where a finite limit would be exceeded the step faults with `ResourceLimit` in place of wrapping, truncating or
dropping, and nothing of the instruction is written. Clauses: the result and the `pc` update of ADD, MUL and ADJUST-BASE, OUTPUT to
a full queue and its `pc` update, and OUTPUT's operand when its relative sum is out of range or its position address is at or above
`MEM_CAP` (R68); the operands of every instruction are in `LimitedOperandFaults`. That the record of a limit other than an address
carries no address, and that a relative sum's range is looked at before its sign and its place in memory, is log 6. -/
def Obligations.ExceededLimitFaults : Prop :=
  ∀ (s : State) (a b c : Mode),
    (s.resolvesRRW a b c →
      (s.fits (s.value a (s.operandWord 1) + s.value b (s.operandWord 2)) = false ∨ s.fits (s.pc + 4) = false →
        exec (.add a b c) s = .next (s.afterFault .resourceLimit none
          (s.operandAddrs 3 ++ s.reads a (s.operandWord 1) ++ s.reads b (s.operandWord 2)))) ∧
      (s.fits (s.value a (s.operandWord 1) * s.value b (s.operandWord 2)) = false ∨ s.fits (s.pc + 4) = false →
        exec (.mul a b c) s = .next (s.afterFault .resourceLimit none
          (s.operandAddrs 3 ++ s.reads a (s.operandWord 1) ++ s.reads b (s.operandWord 2))))) ∧
    (s.resolvesR a →
      (s.fits (s.rb + s.value a (s.operandWord 1)) = false ∨ s.fits (s.pc + 2) = false →
        exec (.adjustBase a) s = .next (s.afterFault .resourceLimit none
          (s.operandAddrs 1 ++ s.reads a (s.operandWord 1)))) ∧
      (s.outRoom = false ∨ s.fits (s.pc + 2) = false →
        exec (.output a) s = .next (s.afterFault .resourceLimit none
          (s.operandAddrs 1 ++ s.reads a (s.operandWord 1))))) ∧
    (s.fetchable 1 = true →
      (s.fits (s.rb + s.operandWord 1) = false →
        exec (.output .relative) s = .next (s.afterFault .resourceLimit none (s.operandAddrs 1))) ∧
      (0 ≤ s.operandWord 1 → s.params.below (s.operandWord 1) = false →
        exec (.output .position) s =
          .next (s.afterFault .resourceLimit (some (s.operandWord 1)) (s.operandAddrs 1))))

/-- The same at other places a limit can be met. R5, R68, R258: the `pc` update of the comparisons and of INPUT, a jump's new `pc`
(the fall-through or the target, whichever the condition selects), and an instruction word at or above `MEM_CAP`, which is not
fetched. That INPUT faults on a value outside `W` (the value stays in the queue) is the model's choice, as is the shape of the
record: both are log 6. -/
def Obligations.ExceededLimitFaultsElsewhere : Prop :=
  ∀ (s : State) (a b c : Mode),
    (s.resolvesRRW a b c → s.fits (s.pc + 4) = false → ∀ i ∈ [Instr.lessThan a b c, .equals a b c],
      exec i s = .next (s.afterFault .resourceLimit none
        (s.operandAddrs 3 ++ s.reads a (s.operandWord 1) ++ s.reads b (s.operandWord 2)))) ∧
    (s.resolvesRR a b →
      (∀ i ∈ [Instr.jumpIfTrue a b, .jumpIfFalse a b],
        (s.value a (s.operandWord 1) = 0 ↔ i = .jumpIfTrue a b) → s.fits (s.pc + 3) = false →
        exec i s = .next (s.afterFault .resourceLimit none
          (s.operandAddrs 2 ++ s.reads a (s.operandWord 1) ++ s.reads b (s.operandWord 2)))) ∧
      (∀ i ∈ [Instr.jumpIfTrue a b, .jumpIfFalse a b],
        (s.value a (s.operandWord 1) = 0 ↔ i = .jumpIfFalse a b) → s.fits (s.value b (s.operandWord 2)) = false →
        exec i s = .next (s.afterFault .resourceLimit none
          (s.operandAddrs 2 ++ s.reads a (s.operandWord 1) ++ s.reads b (s.operandWord 2))))) ∧
    (∀ (v : Int) (rest : List Int), s.params.policy = .blocking → s.inq = v :: rest → s.resolvesW a →
      s.fits v = false ∨ s.fits (s.pc + 2) = false →
      exec (.input a) s = .next (s.afterFault .resourceLimit none (s.operandAddrs 1))) ∧
    (s.fsm = .running → 0 ≤ s.pc → s.params.below s.pc = false →
      step s = .next { s with
        fsm := .faulted
        fault := some { cause := .resourceLimit, pc := s.pc, word := none, opcode := none, addr := some s.pc } })

/-- R5, R68, R118, R258: an operand whose relative sum is out of range, or whose address is at or above `MEM_CAP`, faults with
`ResourceLimit`, the first such operand in operand order, for the read operands of every format and for the write targets of ADD,
MUL, LESS-THAN, EQUALS and INPUT; nothing of the instruction is committed. That a sum's range is looked at before its sign, that it
leaves the record without an address, and that a target is checked when it is resolved, is log 6. -/
def Obligations.LimitedOperandFaults : Prop :=
  ∀ (s : State) (a b c : Mode) (x : Option Int),
    (s.fetchable 3 = true → ∀ i ∈ [Instr.add a b c, .mul a b c, .lessThan a b c, .equals a b c],
      (s.limitedOperand a (s.operandWord 1) x → exec i s = .next (s.afterFault .resourceLimit x (s.operandAddrs 3))) ∧
      (s.addressable a (s.operandWord 1) = true → s.limitedOperand b (s.operandWord 2) x →
        exec i s = .next (s.afterFault .resourceLimit x (s.operandAddrs 3 ++ s.reads a (s.operandWord 1)))) ∧
      (s.addressable a (s.operandWord 1) = true → s.addressable b (s.operandWord 2) = true →
        s.limitedOperand c (s.operandWord 3) x →
        exec i s = .next (s.afterFault .resourceLimit x
          (s.operandAddrs 3 ++ s.reads a (s.operandWord 1) ++ s.reads b (s.operandWord 2))))) ∧
    (s.fetchable 2 = true → ∀ i ∈ [Instr.jumpIfTrue a b, .jumpIfFalse a b],
      (s.limitedOperand a (s.operandWord 1) x → exec i s = .next (s.afterFault .resourceLimit x (s.operandAddrs 2))) ∧
      (s.addressable a (s.operandWord 1) = true → s.limitedOperand b (s.operandWord 2) x →
        exec i s = .next (s.afterFault .resourceLimit x (s.operandAddrs 2 ++ s.reads a (s.operandWord 1))))) ∧
    (s.fetchable 1 = true → s.limitedOperand a (s.operandWord 1) x →
      (∀ i ∈ [Instr.output a, .adjustBase a],
        exec i s = .next (s.afterFault .resourceLimit x (s.operandAddrs 1))) ∧
      (s.params.policy = .blocking → s.inq ≠ [] →
        exec (.input a) s = .next (s.afterFault .resourceLimit x (s.operandAddrs 1))))

/-- R68, R134, R258: an operand word at or above `MEM_CAP` faults with `ResourceLimit` when it is fetched, whatever the instruction
(an INPUT that halts or blocks fetches none), before any operand is resolved. -/
def Obligations.OperandWordBeyondMemoryFaults : Prop :=
  ∀ (s : State) (i : Instr) (k : Nat), k < i.opcode.format.operands → s.fetchable k = true →
    s.params.below (s.pc + (k + 1 : Nat)) = false →
    (∀ a, i = .input a → s.params.policy = .blocking ∧ s.inq ≠ []) →
    exec i s = .next (s.afterFault .resourceLimit (some (s.pc + (k + 1 : Nat))) (s.operandAddrs k))

/-- R257, R258: with the default, unbounded parameters the cause `ResourceLimit` never occurs. -/
def Obligations.UnboundedCoreNeverHitsALimit : Prop :=
  ∀ s t : State, s.unbounded → s.fsm = .running → step s = .next t →
    ∀ f, t.fault = some f → s.fault ≠ some f → f.cause ≠ .resourceLimit

/-- R5: a finite limit never wraps, truncates, drops or overwrites: a step of a limited core either faults with `ResourceLimit`,
or does exactly what the unbounded machine does. -/
def Obligations.FiniteLimitsOnlyAddAFault : Prop :=
  ∀ s t : State, s.fsm = .running → step s = .next t →
    (t.fsm = .faulted ∧ ∃ f, t.fault = some f ∧ f.cause = .resourceLimit) ∨ step s.unlimited = .next t.unlimited

/-! ## Footprints -/

/-- R142: what ADD, MUL, LESS-THAN and EQUALS leave unchanged, faulting or not. The stored cell is the target of operand 3. -/
def Obligations.FootprintOfStoringInstructions : Prop :=
  ∀ (s t : State) (a b c : Mode), s.mem.wf = true →
    ∀ i ∈ [Instr.add a b c, .mul a b c, .lessThan a b c, .equals a b c], exec i s = .next t →
      t.rb = s.rb ∧ t.inq = s.inq ∧ t.outq = s.outq ∧ t.latch = s.latch ∧ t.params = s.params ∧
      (∀ x, x ≠ s.target c (s.operandWord 3) → t.mem.load x = s.mem.load x) ∧
      ((t.fsm = s.fsm ∧ t.fault = s.fault ∧ t.pc = s.pc + 4) ∨ (t.fsm = .faulted ∧ t.pc = s.pc ∧ t.mem = s.mem))

/-- R142, R161, R162, R164: what INPUT leaves unchanged. Only a consuming INPUT pops, and only it stores, to its own target. -/
def Obligations.FootprintOfInput : Prop :=
  ∀ (s t : State) (a : Mode), s.mem.wf = true → exec (.input a) s = .next t →
    t.rb = s.rb ∧ t.outq = s.outq ∧ t.latch = s.latch ∧ t.params = s.params ∧
    (∀ x, x ≠ s.target a (s.operandWord 1) → t.mem.load x = s.mem.load x) ∧
    ((t.fsm = s.fsm ∧ t.fault = s.fault ∧ t.pc = s.pc + 2 ∧ t.inq = s.inq.tail ∧ s.inq ≠ []) ∨
      ((t.fsm = .faulted ∨ (t.fault = s.fault ∧ (t.fsm = .halted ∨ t.fsm = .blocked))) ∧
        t.pc = s.pc ∧ t.mem = s.mem ∧ t.inq = s.inq))

/-- R142: the jumps, OUTPUT, ADJUST-BASE and HALT store to no cell and pop nothing; the rest each of them leaves unchanged. -/
def Obligations.FootprintOfNonStoringInstructions : Prop :=
  ∀ (s t : State) (a b : Mode),
    (∀ i ∈ [Instr.jumpIfTrue a b, .jumpIfFalse a b, .output a, .adjustBase a, .halt], exec i s = .next t →
      (∀ x, t.mem.load x = s.mem.load x) ∧ t.inq = s.inq ∧ t.params = s.params ∧
      (t.fsm = .faulted ∨ (t.fault = s.fault ∧ (t.fsm = s.fsm ∨ t.fsm = .halted)))) ∧
    (∀ i ∈ [Instr.jumpIfTrue a b, .jumpIfFalse a b, .halt], exec i s = .next t →
      t.rb = s.rb ∧ t.outq = s.outq ∧ t.latch = s.latch) ∧
    (exec (.output a) s = .next t → t.rb = s.rb ∧ (t.pc = s.pc + 2 ∨ (t.fsm = .faulted ∧ t.outq = s.outq ∧ t.latch = s.latch))) ∧
    (exec (.adjustBase a) s = .next t →
      t.outq = s.outq ∧ t.latch = s.latch ∧ (t.pc = s.pc + 2 ∨ (t.fsm = .faulted ∧ t.rb = s.rb))) ∧
    (exec .halt s = .next t → t.pc = s.pc ∧ t.mlen = s.mlen)

/-! ## Invariants -/

/-- R5, R25, R32, R38, R68, R202, R217: every step keeps the invariant of a core. -/
def Obligations.StepKeepsTheInvariant : Prop := ∀ s t : State, s.Inv → step s = .next t → t.Inv

/-- R39: the state after reset meets the invariant. -/
def Obligations.ResetStateMeetsTheInvariant : Prop := State.reset.Inv

/-- R220 to R226, R290, R291: construction establishes the invariant and every host operation keeps it. -/
def Obligations.HostOperationsKeepTheInvariant : Prop :=
  (∀ (p : Params) (seed : List Int) (s : State), State.construct p seed = .accepted s → s.Inv) ∧
  ∀ (o : HostOp) (s t : State), s.Inv → hostApply o s = .accepted t → t.Inv

/-! ## Rules of the whole machine -/

/-- R22, R200: only a step that executes ADJUST-BASE changes `rb`, by the value of its operand. -/
def Obligations.OnlyAdjustBaseChangesTheBase : Prop :=
  ∀ s t : State, step s = .next t → t.rb ≠ s.rb →
    ∃ a, s.fsm = .running ∧ s.holds (.adjustBase a) ∧ t.rb = s.rb + s.value a (s.operandWord 1)

/-- R120: `reset()` leaves `rb = 0`, and after any steps and host operations without a reset from a state with `rb = 0`, a
relative operand with raw value `r` is read from, and written to, the cell at the sum of the deltas plus `r`. -/
def Obligations.RelativeOperandsUseTheSumOfDeltas : Prop :=
  (∀ s t : State, s.hostReset = .accepted t → t.rb = 0) ∧
  ∀ (es : List Event) (s t : State) (r : Int), .host .reset ∉ es → s.rb = 0 → drive es s = some t →
    t.addressable .relative r = true →
    resolveRead .relative r t =
      .ok (t.mem.load (deltas es s + r).toNat) (t.grow (deltas es s + r).toNat) ∧
    resolveWrite .relative r t = .ok (deltas es s + r).toNat t

/-- R54: no step lowers `mlen` and no host operation but `reset()` does; `reset()` sets it to the image's length. -/
def Obligations.OnlyResetShrinksTheStore : Prop :=
  (∀ s t : State, step s = .next t → s.mlen ≤ t.mlen) ∧
  (∀ (o : HostOp) (s t : State), o ≠ .reset → hostApply o s = .accepted t → t.mlen = s.mlen) ∧
  ∀ s t : State, s.hostReset = .accepted t → t.mlen = s.params.image.length

/-- R4, R26, R34: no step and no host operation changes the parameters, the image and the policy among them. -/
def Obligations.ParametersNeverChange : Prop :=
  (∀ s t : State, step s = .next t → t.params = s.params) ∧
  ∀ (o : HostOp) (s t : State), hostApply o s = .accepted t → t.params = s.params

/-- R38: a step appends at most one trace entry, of its own address and word: one when it retires, halts, or faults after its
word was fetched, and none when it blocks or faults at fetch. -/
def Obligations.TraceGainsOneEntryPerInstruction : Prop :=
  ∀ s t : State, s.fsm = .running → step s = .next t →
    t.trace = if s.inMemory s.pc = true ∧ t.fsm ≠ .blocked then s.traceAfter else s.trace

/-- R27, R28, R29, R171: a step only removes the head of the input queue and only adds at the back of the output queue, and the
latch follows what it adds. -/
def Obligations.StepMovesTheQueuesInOrder : Prop :=
  ∀ s t : State, step s = .next t →
    (t.inq = s.inq ∨ ∃ v a, s.inq = v :: t.inq ∧ s.holds (.input a)) ∧
    ((t.outq = s.outq ∧ t.latch = s.latch) ∨
      ∃ a, s.holds (.output a) ∧ t.outq = s.outq ++ [s.value a (s.operandWord 1)] ∧
        t.latch = some (s.value a (s.operandWord 1)))

/-- R202: a run ends normally by HALT or, under `Latch`, by opcode 3, and in no other way. -/
def Obligations.HaltedOnlyByHaltOrLatchInput : Prop :=
  ∀ s t : State, s.fsm = .running → step s = .next t →
    (t.fsm = .halted ↔ s.holds .halt ∨ (s.params.policy = .latch ∧ ∃ a, s.holds (.input a))) ∧
    (s.mem.load s.pc.toNat = 0 → t.fsm = .faulted)

/-- R133, R162, R165: a step blocks exactly at an INPUT with an empty queue under `Blocking`; under `Latch` it never does. -/
def Obligations.BlockedOnlyByStarvedInput : Prop :=
  ∀ s t : State, s.fsm = .running → step s = .next t →
    (t.fsm = .blocked ↔ s.params.policy = .blocking ∧ s.inq = [] ∧ ∃ a, s.holds (.input a))

/-- R6, R165: the policy decides what opcode 3 does and nothing else. -/
def Obligations.PolicyOnlyMattersForInput : Prop :=
  ∀ (i : Instr) (s t : State) (p : Policy), (∀ a, i ≠ .input a) → exec i s = .next t →
    exec i (s.withPolicy p) = .next (t.withPolicy p)

/-- R139, R215: the transition table of the dispatch FSM. -/
def Obligations.FsmFollowsItsTransitionTable : Prop :=
  (∀ s t : State, step s = .next t →
    (s.fsm = .running → t.fsm ∈ [Fsm.running, .halted, .blocked, .faulted]) ∧ (s.fsm ≠ .running → t = s)) ∧
  (∀ (o : HostOp) (s : State), s.fsm = .running → hostApply o s = .refused .whileRunning) ∧
  (∀ s t : State, s.go = .accepted t →
    (s.fsm = .ready → t = { s with fsm := .running }) ∧ (s.fsm = .blocked → t = { s with fsm := .running }) ∧
    (s.fsm = .halted → t = s) ∧ (s.fsm = .faulted → t = s)) ∧
  (∀ s t : State, s.hostReset = .accepted t → t.fsm = .ready) ∧
  ∀ (o : HostOp) (s t : State), o ≠ .reset → o ≠ .go → hostApply o s = .accepted t → t.fsm = s.fsm

/-- R140: no step depends on `mlen`, `trace`, `fault`, `latch` or `outq`: two `Running` cores that differ in nothing else take the
same step (with an output queue of unlimited depth, whose length is then nobody's concern). -/
def Obligations.HiddenStateDoesNotSteerTheStep : Prop :=
  ∀ (s t : State) (mlen : Nat) (trace : List (Int × Int)) (fault : Option FaultRecord) (latch : Option Int) (outq : List Int),
    s.fsm = .running → s.params.outDepth = none → step s = .next t →
    ∃ t', step { s with mlen := mlen, trace := trace, fault := fault, latch := latch, outq := outq } = .next t' ∧
      t'.pc = t.pc ∧ t'.rb = t.rb ∧ t'.mem = t.mem ∧ t'.inq = t.inq ∧ t'.fsm = t.fsm ∧ t'.params = t.params ∧
      (t.fsm = .faulted → t'.fault = t.fault) ∧ ∃ out, t.outq = s.outq ++ out ∧ t'.outq = outq ++ out

/-- R53, R59: a read after a write returns the written value at the written cell and the old value at every other, and the write
keeps the canonical form. -/
def Obligations.ReadAfterWriteInMemory : Prop :=
  ∀ (m : Memory) (a b : Nat) (v : Int), m.wf = true →
    (m.store a v).load b = (if b = a then v else m.load b) ∧ (m.store a v).wf = true

/-- R24, R55: a memory is its contents: two memories in canonical form that read alike are equal. -/
def Obligations.MemoryIsItsContents : Prop :=
  ∀ m m' : Memory, m.wf = true → m'.wf = true → (∀ a, m.load a = m'.load a) → m = m'

/-- R65, R66: a word that an ADD stores into the cell right after itself is the instruction the next step runs. -/
def Obligations.StoredWordIsTheNextInstruction : Prop :=
  ∀ (s : State) (a b c : Mode) (i : Instr), s.mem.wf = true → s.fsm = .running → s.holds (.add a b c) →
    s.resolvesRRW a b c → (s.target c (s.operandWord 3) : Int) = s.pc + 4 → s.fits (s.pc + 4) = true →
    s.fits (encode i) = true → i.wellFormed = true →
    s.value a (s.operandWord 1) + s.value b (s.operandWord 2) = encode i →
    ∃ t, step s = .next t ∧ t.pc = s.pc + 4 ∧ step t = exec i (t.grow t.pc.toNat)

/-! ## The host interface -/

/-- R291: `reset()` gives every piece of state its reset value, whatever the core did; the result is that of `new(image, [])`. -/
def Obligations.ResetRestoresTheImage : Prop :=
  ∀ s : State, s.Inv → s.fsm ≠ .running →
    ∃ t, s.hostReset = .accepted t ∧ State.construct s.params [] = .accepted t ∧
      (∀ a, t.mem.load a = s.params.image.getD a 0) ∧ t.mlen = s.params.image.length ∧ t.pc = 0 ∧ t.rb = 0 ∧
      t.inq = [] ∧ t.outq = [] ∧ t.trace = [] ∧ t.fsm = .ready ∧ t.fault = none ∧ t.latch = none ∧ t.params = s.params

/-- R294: `reset()` is total (in every state but `Running`, R295), two resets in a row equal one, and a reset right after
construction changes only the input queue. -/
def Obligations.ResetIsIdempotent : Prop :=
  (∀ s : State, s.fsm ≠ .running → ∃ t, s.hostReset = .accepted t) ∧
  (∀ s t : State, s.hostReset = .accepted t → t.hostReset = .accepted t) ∧
  ∀ (p : Params) (seed : List Int) (s : State), State.construct p seed = .accepted s →
    s.hostReset = .accepted { s with inq := [] }

/-- R222, R223, R224: `push` only appends to the input queue, `pop` and drain only remove from the output queue, and observing
changes nothing. -/
def Obligations.HostTouchesOnlyTheQueues : Prop :=
  (∀ (s t : State) (vs : List Int), s.push vs = .accepted t → t = { s with inq := s.inq ++ vs }) ∧
  (∀ (s : State) (vs : List Int), s.fsm ≠ .running → s.unbounded → s.push vs = .accepted { s with inq := s.inq ++ vs }) ∧
  (∀ s : State, s.fsm ≠ .running → s.outq = [] → s.pop = .accepted (none, s)) ∧
  (∀ (s : State) (v : Int) (rest : List Int), s.fsm ≠ .running → s.outq = v :: rest →
    s.pop = .accepted (some v, { s with outq := rest })) ∧
  (∀ s : State, s.fsm ≠ .running → s.drain = .accepted (s.outq, { s with outq := [] })) ∧
  ∀ s t : State, hostApply .observe s = .accepted t → t = s

/-- R213, R214: `run()` on a `Halted` or `Faulted` core takes no step, changes nothing and returns that status; with an argument
only the push of it happens. -/
def Obligations.EndedCoreIgnoresRun : Prop :=
  (∀ (s : State) (fuel : Nat),
    (s.fsm = .halted → s.run fuel = .accepted (.returned .halted s)) ∧
    (s.fsm = .faulted → s.run fuel = .accepted (.returned .faulted s))) ∧
  ∀ (s t : State) (vs : List Int) (fuel : Nat), s.push vs = .accepted t →
    (s.fsm = .halted → s.runWith vs fuel = .accepted (.returned .halted { s with inq := s.inq ++ vs })) ∧
    (s.fsm = .faulted → s.runWith vs fuel = .accepted (.returned .faulted { s with inq := s.inq ++ vs }))

/-- R163: `run()` on a `Blocked` core whose input queue is empty returns `Blocked` and leaves every component as it was. -/
def Obligations.BlockedRunIsIdempotent : Prop :=
  ∀ (s : State) (fuel : Nat), s.Inv → s.fsm = .blocked → s.inq = [] →
    s.run (fuel + 1) = .accepted (.returned .blocked s)

/-- R273: once there is a fault record, no step and no host operation but `reset()` changes it or the status. -/
def Obligations.FaultRecordIsWrittenOnce : Prop :=
  ∀ (s t : State) (f : FaultRecord), s.Inv → s.fault = some f →
    (step s = .next t → t.fault = some f ∧ t.fsm = .faulted) ∧
    ∀ o : HostOp, o ≠ .reset → hostApply o s = .accepted t → t.fault = some f ∧ t.fsm = .faulted

/-! ## Compositions -/

/-- R41, R241: running one core of a composition changes no other core and no FIFO it is not attached to. -/
def Obligations.CoresShareOnlyTheirFifos : Prop :=
  ∀ (n n' : Net) (st : Status) (k fuel : Nat), n.runCore k fuel = .done (st, n') →
    (∀ j, j ≠ k → n'.nodes[j]? = n.nodes[j]?) ∧
    ∀ d, n.nodes[k]? = some d → ∀ f, f ≠ d.inFifo → f ≠ d.outFifo → n'.fifo f = n.fifo f

/-- R240: a wired composition of cores that are between runs can make no further step, no core's `run()` changing anything,
exactly when every core is `Halted`, `Faulted`, or `Blocked` with its input queue empty. That a core wired to itself is no wiring
is log 11; that a run which does not end gives no answer, and that a shared FIFO is stored once, is log 13. -/
def Obligations.DeadlockIsExactlyNoProgress : Prop :=
  ∀ n : Net, n.wired = true → (∀ d ∈ n.nodes, (n.view d).Inv) →
    (n.deadlocked = true ↔ ∀ k < n.nodes.length, ∀ fuel, ∃ st, n.runCore k (fuel + 1) = .done (st, n))

/-- R238, R304: a composition in which two cores produce to one FIFO, or two consume from one, makes no transition: every
operation on it is refused, and so is the joining of such cores. -/
def Obligations.SecondProducerOrConsumerIsRefused : Prop :=
  (∀ n : Net, twoParties n.nodes → ∀ (k fuel : Nat) (vs : List Int),
    n.runCore k fuel = .refused .badWiring ∧ n.resetCore k = .refused .badWiring ∧
    n.pushInput k vs = .refused .badWiring ∧ n.popOutput k = .refused .badWiring ∧
    n.drainOutput k = .refused .badWiring ∧ n.observeCore k = .refused .badWiring) ∧
  ∀ (nodes : List Node) (count : Nat), twoParties nodes → ∀ n, Net.wire nodes count ≠ .done n

/-- R236: what joining accepts is wired (log 11 for a core wired to itself), and no operation changes the topology. -/
def Obligations.TopologyNeverChanges : Prop :=
  (∀ (nodes : List Node) (count : Nat) (n : Net), Net.wire nodes count = .done n →
    n.wired = true ∧ n.topology = nodes.map (fun d => (d.inFifo, d.outFifo))) ∧
  ∀ (n n' : Net) (k fuel : Nat) (vs : List Int),
    ((∃ st, n.runCore k fuel = .done (st, n')) ∨ n.resetCore k = .done n' ∨ n.pushInput k vs = .done n' ∨
      (∃ v, n.popOutput k = .done (v, n')) ∨ (∃ v, n.drainOutput k = .done (v, n')) ∨
      ∃ o, n.observeCore k = .done (o, n')) →
    n'.wired = true ∧ n'.topology = n.topology ∧ n'.fifos.length = n.fifos.length

/-- R222, R223, R238, R243: between the runs of a core the host pushes into its input FIFO if no core of the composition produces to
it, and pops from or drains its output FIFO, being given the values, if no core consumes from it; nothing else changes. Where a core
does, the host is refused: a FIFO has one producer and one consumer (log 13). -/
def Obligations.HostReachesOnlyOuterFifos : Prop :=
  ∀ (n : Net) (k : Nat) (d : Node), n.wired = true → n.nodes[k]? = some d →
    ((∀ e ∈ n.nodes, e.outFifo ≠ d.inFifo) → d.core.fsm ≠ .running → d.core.unbounded → ∀ vs,
      n.pushInput k vs = .done { n with fifos := n.fifos.set d.inFifo (n.fifo d.inFifo ++ vs) }) ∧
    ((∀ e ∈ n.nodes, e.inFifo ≠ d.outFifo) → d.core.fsm ≠ .running →
      n.popOutput k =
        .done ((n.fifo d.outFifo).head?, { n with fifos := n.fifos.set d.outFifo (n.fifo d.outFifo).tail }) ∧
      n.drainOutput k = .done (n.fifo d.outFifo, { n with fifos := n.fifos.set d.outFifo [] })) ∧
    ((∃ e ∈ n.nodes, e.outFifo = d.inFifo) → ∀ vs, n.pushInput k vs = .refused .secondParty) ∧
    ((∃ e ∈ n.nodes, e.inFifo = d.outFifo) →
      n.popOutput k = .refused .secondParty ∧ n.drainOutput k = .refused .secondParty)

/-- R40, R296: the `reset()` of one core of a composition empties both FIFOs it is attached to, and any core that shares one of
them sees its queue emptied; the other cores and the other FIFOs stay as they are. -/
def Obligations.ResetEmptiesSharedFifos : Prop :=
  ∀ (n : Net) (k : Nat) (d : Node), n.wired = true → n.nodes[k]? = some d → d.core.fsm ≠ .running →
    ∃ n', n.resetCore k = .done n' ∧
      (∀ e ∈ n'.nodes, (e.inFifo = d.inFifo ∨ e.inFifo = d.outFifo → (n'.view e).inq = []) ∧
        (e.outFifo = d.inFifo ∨ e.outFifo = d.outFifo → (n'.view e).outq = [])) ∧
      (∀ j, j ≠ k → n'.nodes[j]? = n.nodes[j]?) ∧ ∀ f, f ≠ d.inFifo → f ≠ d.outFifo → n'.fifo f = n.fifo f
end

