-- ==== Sys2Proof/Laws/Memory.lean ====
section
/-! SUPPORT. The memory laws: read after write, the canonical form is kept, and equal contents are equal lists. -/

namespace Sys2Proof.Machine

@[simp] theorem Memory.load_nil (a : Nat) : Memory.load [] a = 0 := rfl

theorem Memory.load_cons (k : Nat) (v : Int) (m : Memory) (a : Nat) :
    Memory.load ((k, v) :: m) a = if k = a then v else Memory.load m a := rfl

theorem Memory.load_of_lt {m : Memory} {lo a : Nat} (h : Memory.wfFrom lo m = true) (ha : a < lo) : m.load a = 0 := by
  induction m generalizing lo with
  | nil => rfl
  | cons c m ih =>
    obtain ⟨k, v⟩ := c
    simp only [Memory.wfFrom, Bool.and_eq_true, decide_eq_true_eq] at h
    rw [Memory.load_cons, if_neg (by omega)]
    exact ih h.2 (by omega)

theorem Memory.wfFrom_mono {m : Memory} {lo lo' : Nat} (h : Memory.wfFrom lo m = true) (hl : lo' ≤ lo) :
    Memory.wfFrom lo' m = true := by
  cases m with
  | nil => rfl
  | cons c m =>
    obtain ⟨k, v⟩ := c
    simp only [Memory.wfFrom, Bool.and_eq_true, decide_eq_true_eq] at h ⊢
    exact ⟨⟨by omega, h.1.2⟩, h.2⟩

/-- Read after write, at the written cell and at every other one (R53, R59), in a memory in canonical form. -/
theorem Memory.load_store {m : Memory} {lo : Nat} (h : Memory.wfFrom lo m = true) (a : Nat) (v : Int) (b : Nat) :
    (m.store a v).load b = if b = a then v else m.load b := by
  induction m generalizing lo with
  | nil =>
    simp only [Memory.store]
    split
    · next hv => subst hv; split <;> rfl
    · rw [Memory.load_cons]; split <;> split <;> first | rfl | omega
  | cons c m ih =>
    obtain ⟨k, u⟩ := c
    simp only [Memory.wfFrom, Bool.and_eq_true, decide_eq_true_eq] at h
    have hrest := ih h.2
    simp only [Memory.store]
    split
    · split
      · next hka hv =>
        change v = 0 at hv
        rw [Memory.load_cons]
        subst hv
        by_cases hb : b = a
        · subst hb
          rw [if_neg (by omega), if_pos rfl]
          exact Memory.load_of_lt h.2 (by omega)
        · rw [if_neg hb]
      · rw [Memory.load_cons, Memory.load_cons]
        by_cases hb : b = a
        · subst hb; simp
        · rw [if_neg (by omega), if_neg hb]
    · split
      · next hne hka =>
        subst hka
        split
        · next hv =>
          change v = 0 at hv
          subst hv
          by_cases hb : b = a
          · subst hb
            rw [if_pos rfl]
            exact Memory.load_of_lt h.2 (by omega)
          · rw [if_neg hb, Memory.load_cons, if_neg (by omega)]
        · rw [Memory.load_cons, Memory.load_cons]
          by_cases hb : b = a
          · subst hb; simp
          · rw [if_neg (by omega), if_neg hb, if_neg (by omega)]
      · rw [Memory.load_cons, Memory.load_cons, hrest]
        by_cases hk : k = b
        · rw [if_pos hk, if_neg (by omega), if_pos hk]
        · rw [if_neg hk, if_neg hk]

theorem Memory.wfFrom_store {m : Memory} {lo : Nat} (h : Memory.wfFrom lo m = true) (a : Nat) (v : Int) (ha : lo ≤ a) :
    Memory.wfFrom lo (m.store a v) = true := by
  induction m generalizing lo with
  | nil =>
    simp only [Memory.store]
    split
    · rfl
    · next hv => simp [Memory.wfFrom, ha, hv]
  | cons c m ih =>
    obtain ⟨k, u⟩ := c
    have h0 := h
    simp only [Memory.wfFrom, Bool.and_eq_true, decide_eq_true_eq] at h
    simp only [Memory.store]
    split
    · split
      · exact h0
      · next hka hv =>
        simp only [Memory.wfFrom, Bool.and_eq_true, decide_eq_true_eq]
        exact ⟨⟨ha, by simpa using hv⟩, ⟨⟨by omega, h.1.2⟩, h.2⟩⟩
    · split
      · next hne hka =>
        subst hka
        split
        · exact Memory.wfFrom_mono h.2 (by omega)
        · next hv =>
          simp only [Memory.wfFrom, Bool.and_eq_true, decide_eq_true_eq]
          exact ⟨⟨ha, by simpa using hv⟩, h.2⟩
      · simp only [Memory.wfFrom, Bool.and_eq_true, decide_eq_true_eq]
        exact ⟨h.1, ih h.2 (by omega)⟩

/-- A write keeps the canonical form. -/
theorem Memory.wf_store {m : Memory} (h : m.wf = true) (a : Nat) (v : Int) : (m.store a v).wf = true :=
  Memory.wfFrom_store h a v (Nat.zero_le a)

theorem Memory.wfFrom_ofCells (vs : List Int) (base lo : Nat) (h : lo ≤ base) :
    Memory.wfFrom lo (Memory.ofCells base vs) = true := by
  induction vs generalizing base lo with
  | nil => rfl
  | cons v vs ih =>
    simp only [Memory.ofCells]
    split
    · exact ih (base + 1) lo (by omega)
    · next hv =>
      simp only [Memory.wfFrom, Bool.and_eq_true, decide_eq_true_eq]
      exact ⟨⟨h, by simpa using hv⟩, ih (base + 1) (base + 1) (Nat.le_refl _)⟩

/-- The memory of an image is in canonical form. -/
theorem Memory.wf_ofImage (image : List Int) : (Memory.ofImage image).wf = true :=
  Memory.wfFrom_ofCells image 0 0 (Nat.le_refl _)

theorem Memory.load_ofCells (vs : List Int) (base a : Nat) :
    (Memory.ofCells base vs).load a = if base ≤ a then vs.getD (a - base) 0 else 0 := by
  induction vs generalizing base with
  | nil => simp [Memory.ofCells]
  | cons v vs ih =>
    have hstep : (Memory.ofCells (base + 1) vs).load a = if base + 1 ≤ a then vs.getD (a - (base + 1)) 0 else 0 := ih _
    simp only [Memory.ofCells]
    split
    · next hv =>
      change v = 0 at hv
      subst hv
      rw [hstep]
      by_cases hb : base = a
      · subst hb; simp
      · by_cases hlt : base + 1 ≤ a
        · rw [if_pos hlt, if_pos (by omega), show a - base = (a - (base + 1)) + 1 by omega]; simp
        · rw [if_neg hlt, if_neg (by omega)]
    · rw [Memory.load_cons, hstep]
      by_cases hb : base = a
      · subst hb; simp
      · rw [if_neg hb]
        by_cases hlt : base + 1 ≤ a
        · rw [if_pos hlt, if_pos (by omega), show a - base = (a - (base + 1)) + 1 by omega]; simp
        · rw [if_neg hlt, if_neg (by omega)]

/-- `mem(a) = image[a]` below `len(image)` and 0 elsewhere (R26). -/
theorem Memory.load_ofImage (image : List Int) (a : Nat) : (Memory.ofImage image).load a = image.getD a 0 := by
  simp [Memory.ofImage, Memory.load_ofCells]

theorem Memory.eq_of_load {m m' : Memory} {lo lo' : Nat} (h : Memory.wfFrom lo m = true) (h' : Memory.wfFrom lo' m' = true)
    (he : ∀ a, m.load a = m'.load a) : m = m' := by
  induction m generalizing m' lo lo' with
  | nil =>
    cases m' with
    | nil => rfl
    | cons c m' =>
      obtain ⟨k, v⟩ := c
      simp only [Memory.wfFrom, Bool.and_eq_true, decide_eq_true_eq, bne_iff_ne, Memory.unlisted] at h'
      have := he k
      rw [Memory.load_cons, if_pos rfl] at this
      exact absurd this.symm h'.1.2
  | cons c m ih =>
    obtain ⟨k, v⟩ := c
    cases m' with
    | nil =>
      simp only [Memory.wfFrom, Bool.and_eq_true, decide_eq_true_eq, bne_iff_ne, Memory.unlisted] at h
      have := he k
      rw [Memory.load_cons, if_pos rfl] at this
      exact absurd this h.1.2
    | cons c' m' =>
      obtain ⟨k', v'⟩ := c'
      simp only [Memory.wfFrom, Bool.and_eq_true, decide_eq_true_eq, bne_iff_ne, Memory.unlisted] at h h'
      have hk : k = k' := by
        by_contra hne
        rcases Nat.lt_or_gt_of_ne hne with hlt | hlt
        · have := he k
          rw [Memory.load_cons, if_pos rfl, Memory.load_cons, if_neg (by omega),
            Memory.load_of_lt h'.2 (by omega)] at this
          exact h.1.2 this
        · have := he k'
          rw [Memory.load_cons, if_neg (by omega), Memory.load_of_lt h.2 (by omega), Memory.load_cons, if_pos rfl] at this
          exact h'.1.2 this.symm
      subst hk
      have hv : v = v' := by simpa [Memory.load_cons] using he k
      subst hv
      have : m = m' := ih h.2 h'.2 fun a => by
        by_cases hka : k = a
        · subst hka
          rw [Memory.load_of_lt h.2 (by omega), Memory.load_of_lt h'.2 (by omega)]
        · simpa [Memory.load_cons, hka] using he a
      rw [this]

/-- Two memories in canonical form with the same contents are the same list. -/
theorem Memory.ext_load {m m' : Memory} (h : m.wf = true) (h' : m'.wf = true) (he : ∀ a, m.load a = m'.load a) : m = m' :=
  Memory.eq_of_load h h' he

end Sys2Proof.Machine
end

