-- ==== Sys2Proof/Laws/State.lean ====
section
/-! SUPPORT. One lemma per field per update of the state, and what the limit and address checks look at. -/

namespace Sys2Proof.Machine

variable (s : State)

/-! ## `State.grow` -/

@[simp] theorem State.grow_pc (a : Nat) : (s.grow a).pc = s.pc := rfl
@[simp] theorem State.grow_rb (a : Nat) : (s.grow a).rb = s.rb := rfl
@[simp] theorem State.grow_mem (a : Nat) : (s.grow a).mem = s.mem := rfl
@[simp] theorem State.grow_mlen (a : Nat) : (s.grow a).mlen = max s.mlen (a + 1) := rfl
@[simp] theorem State.grow_inq (a : Nat) : (s.grow a).inq = s.inq := rfl
@[simp] theorem State.grow_outq (a : Nat) : (s.grow a).outq = s.outq := rfl
@[simp] theorem State.grow_fsm (a : Nat) : (s.grow a).fsm = s.fsm := rfl
@[simp] theorem State.grow_fault (a : Nat) : (s.grow a).fault = s.fault := rfl
@[simp] theorem State.grow_latch (a : Nat) : (s.grow a).latch = s.latch := rfl
@[simp] theorem State.grow_trace (a : Nat) : (s.grow a).trace = s.trace := rfl
@[simp] theorem State.grow_params (a : Nat) : (s.grow a).params = s.params := rfl

/-! ## `State.logged` -/

@[simp] theorem State.logged_pc : (s.logged).pc = s.pc := rfl
@[simp] theorem State.logged_rb : (s.logged).rb = s.rb := rfl
@[simp] theorem State.logged_mem : (s.logged).mem = s.mem := rfl
@[simp] theorem State.logged_mlen : (s.logged).mlen = s.mlen := rfl
@[simp] theorem State.logged_inq : (s.logged).inq = s.inq := rfl
@[simp] theorem State.logged_outq : (s.logged).outq = s.outq := rfl
@[simp] theorem State.logged_fsm : (s.logged).fsm = s.fsm := rfl
@[simp] theorem State.logged_fault : (s.logged).fault = s.fault := rfl
@[simp] theorem State.logged_latch : (s.logged).latch = s.latch := rfl
@[simp] theorem State.logged_trace : (s.logged).trace = s.trace ++ s.traceEntry := rfl
@[simp] theorem State.logged_params : (s.logged).params = s.params := rfl

/-! ## `State.memWrite` -/

@[simp] theorem State.memWrite_pc (a : Nat) (v : Int) : (s.memWrite a v).pc = s.pc := rfl
@[simp] theorem State.memWrite_rb (a : Nat) (v : Int) : (s.memWrite a v).rb = s.rb := rfl
@[simp] theorem State.memWrite_mem (a : Nat) (v : Int) : (s.memWrite a v).mem = s.mem.store a v := rfl
@[simp] theorem State.memWrite_mlen (a : Nat) (v : Int) : (s.memWrite a v).mlen = max s.mlen (a + 1) := rfl
@[simp] theorem State.memWrite_inq (a : Nat) (v : Int) : (s.memWrite a v).inq = s.inq := rfl
@[simp] theorem State.memWrite_outq (a : Nat) (v : Int) : (s.memWrite a v).outq = s.outq := rfl
@[simp] theorem State.memWrite_fsm (a : Nat) (v : Int) : (s.memWrite a v).fsm = s.fsm := rfl
@[simp] theorem State.memWrite_fault (a : Nat) (v : Int) : (s.memWrite a v).fault = s.fault := rfl
@[simp] theorem State.memWrite_latch (a : Nat) (v : Int) : (s.memWrite a v).latch = s.latch := rfl
@[simp] theorem State.memWrite_trace (a : Nat) (v : Int) : (s.memWrite a v).trace = s.trace := rfl
@[simp] theorem State.memWrite_params (a : Nat) (v : Int) : (s.memWrite a v).params = s.params := rfl

/-! ## `State.raise` -/

@[simp] theorem State.raise_pc (t : Trap) : (s.raise t).pc = s.pc := rfl
@[simp] theorem State.raise_rb (t : Trap) : (s.raise t).rb = s.rb := rfl
@[simp] theorem State.raise_mem (t : Trap) : (s.raise t).mem = s.mem := rfl
@[simp] theorem State.raise_mlen (t : Trap) : (s.raise t).mlen = s.mlen := rfl
@[simp] theorem State.raise_inq (t : Trap) : (s.raise t).inq = s.inq := rfl
@[simp] theorem State.raise_outq (t : Trap) : (s.raise t).outq = s.outq := rfl
@[simp] theorem State.raise_fsm (t : Trap) : (s.raise t).fsm = .faulted := rfl
@[simp] theorem State.raise_fault (t : Trap) : (s.raise t).fault = some (s.faultRecord t) := rfl
@[simp] theorem State.raise_latch (t : Trap) : (s.raise t).latch = s.latch := rfl
@[simp] theorem State.raise_trace (t : Trap) : (s.raise t).trace = s.trace ++ s.traceEntry := rfl
@[simp] theorem State.raise_params (t : Trap) : (s.raise t).params = s.params := rfl

/-! ## `State.suspend` -/

@[simp] theorem State.suspend_pc : (s.suspend).pc = s.pc := rfl
@[simp] theorem State.suspend_rb : (s.suspend).rb = s.rb := rfl
@[simp] theorem State.suspend_mem : (s.suspend).mem = s.mem := rfl
@[simp] theorem State.suspend_mlen : (s.suspend).mlen = s.mlen := rfl
@[simp] theorem State.suspend_inq : (s.suspend).inq = s.inq := rfl
@[simp] theorem State.suspend_outq : (s.suspend).outq = s.outq := rfl
@[simp] theorem State.suspend_fsm : (s.suspend).fsm = .blocked := rfl
@[simp] theorem State.suspend_fault : (s.suspend).fault = s.fault := rfl
@[simp] theorem State.suspend_latch : (s.suspend).latch = s.latch := rfl
@[simp] theorem State.suspend_trace : (s.suspend).trace = s.trace := rfl
@[simp] theorem State.suspend_params : (s.suspend).params = s.params := rfl

/-! ## `State.halt` -/

@[simp] theorem State.halt_pc : (s.halt).pc = s.pc := rfl
@[simp] theorem State.halt_rb : (s.halt).rb = s.rb := rfl
@[simp] theorem State.halt_mem : (s.halt).mem = s.mem := rfl
@[simp] theorem State.halt_mlen : (s.halt).mlen = s.mlen := rfl
@[simp] theorem State.halt_inq : (s.halt).inq = s.inq := rfl
@[simp] theorem State.halt_outq : (s.halt).outq = s.outq := rfl
@[simp] theorem State.halt_fsm : (s.halt).fsm = .halted := rfl
@[simp] theorem State.halt_fault : (s.halt).fault = s.fault := rfl
@[simp] theorem State.halt_latch : (s.halt).latch = s.latch := rfl
@[simp] theorem State.halt_trace : (s.halt).trace = s.trace ++ s.traceEntry := rfl
@[simp] theorem State.halt_params : (s.halt).params = s.params := rfl

/-! ## `State.retire` -/

@[simp] theorem State.retire_pc (p : Int) : (s.retire p).pc = p := rfl
@[simp] theorem State.retire_rb (p : Int) : (s.retire p).rb = s.rb := rfl
@[simp] theorem State.retire_mem (p : Int) : (s.retire p).mem = s.mem := rfl
@[simp] theorem State.retire_mlen (p : Int) : (s.retire p).mlen = s.mlen := rfl
@[simp] theorem State.retire_inq (p : Int) : (s.retire p).inq = s.inq := rfl
@[simp] theorem State.retire_outq (p : Int) : (s.retire p).outq = s.outq := rfl
@[simp] theorem State.retire_fsm (p : Int) : (s.retire p).fsm = s.fsm := rfl
@[simp] theorem State.retire_fault (p : Int) : (s.retire p).fault = s.fault := rfl
@[simp] theorem State.retire_latch (p : Int) : (s.retire p).latch = s.latch := rfl
@[simp] theorem State.retire_trace (p : Int) : (s.retire p).trace = s.trace ++ s.traceEntry := rfl
@[simp] theorem State.retire_params (p : Int) : (s.retire p).params = s.params := rfl

/-! ## `State.stored` -/

@[simp] theorem State.stored_pc (a : Nat) (v : Int) (len : Int) : (s.stored a v len).pc = s.pc + len := rfl
@[simp] theorem State.stored_rb (a : Nat) (v : Int) (len : Int) : (s.stored a v len).rb = s.rb := rfl
@[simp] theorem State.stored_mem (a : Nat) (v : Int) (len : Int) : (s.stored a v len).mem = s.mem.store a v := rfl
@[simp] theorem State.stored_mlen (a : Nat) (v : Int) (len : Int) : (s.stored a v len).mlen = max s.mlen (a + 1) := rfl
@[simp] theorem State.stored_inq (a : Nat) (v : Int) (len : Int) : (s.stored a v len).inq = s.inq := rfl
@[simp] theorem State.stored_outq (a : Nat) (v : Int) (len : Int) : (s.stored a v len).outq = s.outq := rfl
@[simp] theorem State.stored_fsm (a : Nat) (v : Int) (len : Int) : (s.stored a v len).fsm = s.fsm := rfl
@[simp] theorem State.stored_fault (a : Nat) (v : Int) (len : Int) : (s.stored a v len).fault = s.fault := rfl
@[simp] theorem State.stored_latch (a : Nat) (v : Int) (len : Int) : (s.stored a v len).latch = s.latch := rfl
@[simp] theorem State.stored_trace (a : Nat) (v : Int) (len : Int) : (s.stored a v len).trace = s.trace ++ s.traceEntry := rfl
@[simp] theorem State.stored_params (a : Nat) (v : Int) (len : Int) : (s.stored a v len).params = s.params := rfl

/-! ## The checks read the registers, the memory and the parameters, never the length or the trace -/

@[simp] theorem State.fits_grow (a : Nat) (v : Int) : (s.grow a).fits v = s.fits v := rfl
@[simp] theorem State.addrTrap_grow (a : Nat) (x : Int) : (s.grow a).addrTrap x = s.addrTrap x := rfl
@[simp] theorem State.inMemory_grow (a : Nat) (x : Int) : (s.grow a).inMemory x = s.inMemory x := rfl
@[simp] theorem State.outRoom_grow (a : Nat) : (s.grow a).outRoom = s.outRoom := rfl
@[simp] theorem State.instrWord_grow (a : Nat) : (s.grow a).instrWord = s.instrWord := rfl
@[simp] theorem State.traceEntry_grow (a : Nat) : (s.grow a).traceEntry = s.traceEntry := rfl
@[simp] theorem State.faultRecord_grow (a : Nat) (t : Trap) : (s.grow a).faultRecord t = s.faultRecord t := rfl
@[simp] theorem State.fits_logged (v : Int) : (s.logged).fits v = s.fits v := rfl
@[simp] theorem State.addrTrap_logged (x : Int) : (s.logged).addrTrap x = s.addrTrap x := rfl
@[simp] theorem State.inMemory_logged (x : Int) : (s.logged).inMemory x = s.inMemory x := rfl
@[simp] theorem State.outRoom_logged  : (s.logged).outRoom = s.outRoom := rfl
@[simp] theorem State.instrWord_logged  : (s.logged).instrWord = s.instrWord := rfl
@[simp] theorem State.traceEntry_logged  : (s.logged).traceEntry = s.traceEntry := rfl
@[simp] theorem State.faultRecord_logged (t : Trap) : (s.logged).faultRecord t = s.faultRecord t := rfl

end Sys2Proof.Machine
end

