-- ==== Sys2Proof/Laws/Operands.lean ====
section
/-! SUPPORT. What the operand fetch and the resolver can do: the exact answer where nothing traps, and in every case no change
but the growth of `mlen`. -/

namespace Sys2Proof.Machine

/-! ## Growth -/

theorem State.lengthAfter_append (s : State) (as bs : List Nat) :
    s.lengthAfter (as ++ bs) = bs.foldl (fun n a => max n (a + 1)) (s.lengthAfter as) := by
  simp [State.lengthAfter]

theorem foldl_max_mono (as : List Nat) (n : Nat) : n ≤ as.foldl (fun n a => max n (a + 1)) n := by
  induction as generalizing n with
  | nil => exact Nat.le_refl n
  | cons a as ih => exact Nat.le_trans (Nat.le_max_left _ _) (ih _)

theorem State.le_lengthAfter (s : State) (as : List Nat) : s.mlen ≤ s.lengthAfter as := foldl_max_mono as s.mlen

/-- Accesses below a bound leave the length within it. -/
theorem foldl_max_le (as : List Nat) (n c : Nat) (hn : n ≤ c) (h : ∀ a ∈ as, a < c) :
    as.foldl (fun n a => max n (a + 1)) n ≤ c := by
  induction as generalizing n with
  | nil => exact hn
  | cons a as ih =>
    refine ih _ ?_ fun b hb => h b (List.mem_cons_of_mem _ hb)
    have := h a (by simp)
    simp only [Nat.max_le]; omega

/-- `s'` is `s` after some reads: only `mlen` differs, and it has not fallen. Every length below `MEM_CAP` stays below. -/
def Grown (s s' : State) : Prop :=
  ∃ n, s.mlen ≤ n ∧ s' = { s with mlen := n } ∧
    (withinCap s.params.memCap s.mlen = true → withinCap s.params.memCap n = true)

theorem Grown.refl (s : State) : Grown s s := ⟨s.mlen, Nat.le_refl _, rfl, id⟩

theorem Grown.trans {s t u : State} (h : Grown s t) (h' : Grown t u) : Grown s u := by
  obtain ⟨n, hn, rfl, hc⟩ := h
  obtain ⟨m, hm, rfl, hc'⟩ := h'
  exact ⟨m, Nat.le_trans hn hm, rfl, fun h => hc' (hc h)⟩

/-! ## One access -/

theorem State.addrTrap_none {s : State} {a : Int} : s.addrTrap a = none ↔ s.inMemory a = true := by
  unfold State.addrTrap State.inMemory
  by_cases h : a < 0
  · simp [h, Int.not_le.2 h]
  · cases hb : s.params.below a <;> simp [h, Int.not_lt.1 h]

theorem State.addrTrap_negative (s : State) {a : Int} (h : a < 0) :
    s.addrTrap a = some { cause := .negativeAddress, addr := some a } := by
  simp [State.addrTrap, h]

theorem State.inMemory_nonneg {s : State} {a : Int} (h : s.inMemory a = true) : 0 ≤ a := by
  simp only [State.inMemory, Bool.and_eq_true, decide_eq_true_eq] at h
  exact h.1

theorem State.inMemory_below {s : State} {a : Int} (h : s.inMemory a = true) : s.params.below a = true := by
  simp only [State.inMemory, Bool.and_eq_true, decide_eq_true_eq] at h
  exact h.2

theorem State.instrWord_eq {s : State} (h : s.inMemory s.pc = true) : s.instrWord = some (s.mem.load s.pc.toNat) := by
  simp [State.instrWord, State.addrTrap_none.2 h]

theorem memRead_ok {s : State} {a : Int} (h : s.inMemory a = true) :
    memRead a s = .ok (s.mem.load a.toNat) (s.grow a.toNat) := by
  simp [memRead, State.addrTrap_none.2 h]

theorem memRead_trap {s : State} {a : Int} {t : Trap} (h : s.addrTrap a = some t) : memRead a s = .trap t s := by
  simp [memRead, h]

/-- Growing to an address below `MEM_CAP` keeps the length within it. -/
theorem withinCap_max {p : Params} {n : Nat} {a : Int} (h : withinCap p.memCap n = true) (ha : 0 ≤ a)
    (hb : p.below a = true) : withinCap p.memCap (max n (a.toNat + 1)) = true := by
  unfold withinCap Params.below at *
  cases hm : p.memCap with
  | none => rfl
  | some c =>
    simp only [hm, decide_eq_true_eq] at h hb ⊢
    omega

theorem Grown.grow {s : State} {a : Int} (h : s.inMemory a = true) : Grown s (s.grow a.toNat) :=
  ⟨max s.mlen (a.toNat + 1), Nat.le_max_left _ _, rfl, fun hc =>
    withinCap_max hc (State.inMemory_nonneg h) (State.inMemory_below h)⟩

/-! ## What any phase leaves behind -/

/-- A reply whose state, trapped or not, is `s` after some reads, and whose value has the property `p`. -/
def Reply.Reads {α : Type} (r : Reply α) (s : State) (p : α → Prop) : Prop :=
  match r with
  | .ok a s' => Grown s s' ∧ p a
  | .trap _ s' => Grown s s'

theorem Reply.Reads.andThen {α β : Type} {r : Reply α} {s : State} {p : α → Prop} {q : β → Prop} {f : α → State → Reply β}
    (h : r.Reads s p) (hf : ∀ a s', Grown s s' → p a → (f a s').Reads s q) : (r.andThen f).Reads s q := by
  cases r with
  | ok a s' => exact hf a s' h.1 h.2
  | trap t s' => exact h

theorem memRead_reads {s s' : State} (h : Grown s s') (a : Int) :
    (memRead a s').Reads s fun v => v = s.mem.load a.toNat := by
  cases ht : s'.addrTrap a with
  | none =>
    rw [memRead_ok (State.addrTrap_none.1 ht)]
    refine ⟨h.trans (Grown.grow (State.addrTrap_none.1 ht)), ?_⟩
    obtain ⟨n, -, rfl, -⟩ := h
    rfl
  | some t => rw [memRead_trap ht]; exact h

theorem fetchOperand_reads {s s' : State} (h : Grown s s') (k : Nat) :
    (fetchOperand k s').Reads s fun v => v = s.operandWord k := by
  have := memRead_reads h (s'.pc + k)
  obtain ⟨n, -, rfl, -⟩ := h
  exact this

theorem relativeAddr_reads {s s' : State} (h : Grown s s') (raw : Int) :
    (relativeAddr raw s').Reads s fun a => a = s.rb + raw := by
  unfold relativeAddr
  split
  · refine ⟨h, ?_⟩
    obtain ⟨n, -, rfl, -⟩ := h
    rfl
  · exact h

theorem resolveRead_reads {s s' : State} (h : Grown s s') (m : Mode) (raw : Int) :
    (resolveRead m raw s').Reads s fun v => v = s.value m raw := by
  cases m with
  | position => exact memRead_reads h raw
  | immediate => exact ⟨h, rfl⟩
  | relative =>
    refine (relativeAddr_reads h raw).andThen fun a s'' hg ha => ?_
    subst ha
    exact memRead_reads hg _

theorem checkTarget_reads {s s' : State} (h : Grown s s') (a : Int) :
    (checkTarget a s').Reads s fun x => x = a.toNat ∧ s.inMemory (x : Int) = true := by
  unfold checkTarget
  split
  · exact h
  · next ht =>
    have hin := State.addrTrap_none.1 ht
    refine ⟨h, rfl, ?_⟩
    rw [Int.toNat_of_nonneg (State.inMemory_nonneg hin)]
    obtain ⟨n, -, rfl, -⟩ := h
    exact hin

theorem resolveWrite_reads {s s' : State} (h : Grown s s') (m : Mode) (raw : Int) :
    (resolveWrite m raw s').Reads s fun x => x = s.target m raw ∧ s.inMemory (x : Int) = true := by
  cases m with
  | position => exact checkTarget_reads h raw
  | immediate => exact h
  | relative =>
    refine (relativeAddr_reads h raw).andThen fun a s'' hg ha => ?_
    subst ha
    exact checkTarget_reads hg _

/-- Phases 4 to 6 of format `RRW`: the two values, and a target that is in memory. -/
theorem operandsRRW_reads (a b c : Mode) (s : State) :
    (operandsRRW a b c s).Reads s fun v =>
      v = (s.value a (s.operandWord 1), s.value b (s.operandWord 2), s.target c (s.operandWord 3)) ∧
      s.inMemory (v.2.2 : Int) = true := by
  refine (fetchOperand_reads (Grown.refl s) 1).andThen fun raw1 _ h h1 => ?_
  refine (fetchOperand_reads h 2).andThen fun raw2 _ h h2 => ?_
  refine (fetchOperand_reads h 3).andThen fun raw3 _ h h3 => ?_
  refine (resolveRead_reads h a raw1).andThen fun _ _ h hx => ?_
  refine (resolveRead_reads h b raw2).andThen fun _ _ h hy => ?_
  refine (resolveWrite_reads h c raw3).andThen fun _ _ h hz => ?_
  subst h1 h2 h3
  exact ⟨h, by rw [hx, hy, hz.1], hz.2⟩

theorem operandsRR_reads (a b : Mode) (s : State) :
    (operandsRR a b s).Reads s fun v => v = (s.value a (s.operandWord 1), s.value b (s.operandWord 2)) := by
  refine (fetchOperand_reads (Grown.refl s) 1).andThen fun raw1 _ h h1 => ?_
  refine (fetchOperand_reads h 2).andThen fun raw2 _ h h2 => ?_
  refine (resolveRead_reads h a raw1).andThen fun _ _ h hx => ?_
  refine (resolveRead_reads h b raw2).andThen fun _ _ h hy => ?_
  subst h1 h2
  exact ⟨h, by rw [hx, hy]⟩

theorem operandsR_reads (a : Mode) (s : State) :
    (operandsR a s).Reads s fun v => v = s.value a (s.operandWord 1) := by
  refine (fetchOperand_reads (Grown.refl s) 1).andThen fun raw1 _ h h1 => ?_
  subst h1
  exact resolveRead_reads h a _

theorem operandsW_reads (a : Mode) (s : State) :
    (operandsW a s).Reads s fun x => x = s.target a (s.operandWord 1) ∧ s.inMemory (x : Int) = true := by
  refine (fetchOperand_reads (Grown.refl s) 1).andThen fun raw1 _ h h1 => ?_
  subst h1
  exact resolveWrite_reads h a _

/-! ## The exact answers where nothing traps -/

/-- `s` after reads at these addresses. -/
def State.grown (s : State) (as : List Nat) : State := { s with mlen := s.lengthAfter as }

@[simp] theorem State.grown_nil (s : State) : s.grown [] = s := rfl

theorem State.grown_grow (s : State) (as : List Nat) (a : Nat) : (s.grown as).grow a = s.grown (as ++ [a]) := by
  simp [State.grown, State.grow, State.lengthAfter]

theorem State.grow_eq_grown (s : State) (a : Nat) : s.grow a = s.grown [a] := rfl

theorem State.fetchable_mono {s : State} {k n : Nat} (h : s.fetchable n = true) (hk : k ≤ n) :
    s.inMemory (s.pc + k) = true := by
  simp only [State.fetchable, State.inMemory, Params.below, Bool.and_eq_true, decide_eq_true_eq] at h ⊢
  refine ⟨by omega, ?_⟩
  have h2 := h.2
  split at h2
  · rfl
  · simp only [decide_eq_true_eq] at h2 ⊢; omega

theorem State.fetchable_pc {s : State} {n : Nat} (h : s.fetchable n = true) : s.inMemory s.pc = true := by
  simpa using State.fetchable_mono h (Nat.zero_le n)

theorem fetchOperand_ok {s : State} {k n : Nat} (h : s.fetchable n = true) (hk : k ≤ n) (as : List Nat) :
    fetchOperand k (s.grown as) = .ok (s.operandWord k) (s.grown (as ++ [(s.pc + k).toNat])) := by
  have hin : (s.grown as).inMemory (s.pc + k) = true := State.fetchable_mono h hk
  unfold fetchOperand
  rw [show (s.grown as).pc = s.pc from rfl, memRead_ok hin, State.grown_grow]
  rfl

theorem relativeAddr_ok {s : State} {raw : Int} (h : s.fits (s.rb + raw) = true) (as : List Nat) :
    relativeAddr raw (s.grown as) = .ok (s.rb + raw) (s.grown as) := by
  unfold relativeAddr
  rw [if_pos]
  · rfl
  · exact h

theorem resolveRead_ok {s : State} {m : Mode} {raw : Int} (h : s.addressable m raw = true) (as : List Nat) :
    resolveRead m raw (s.grown as) = .ok (s.value m raw) (s.grown (as ++ s.reads m raw)) := by
  cases m with
  | position =>
    have hin : (s.grown as).inMemory raw = true := h
    show memRead raw (s.grown as) = _
    rw [memRead_ok hin, State.grown_grow]; rfl
  | immediate =>
    show Reply.ok raw (s.grown as) = _
    simp [State.value, State.reads, State.effAddr]
  | relative =>
    simp only [State.addressable, Bool.and_eq_true] at h
    have hin : (s.grown as).inMemory (s.rb + raw) = true := h.2
    show (relativeAddr raw (s.grown as)).andThen memRead = _
    rw [relativeAddr_ok h.1]
    show memRead (s.rb + raw) (s.grown as) = _
    rw [memRead_ok hin, State.grown_grow]; rfl

theorem checkTarget_ok {s : State} {a : Int} (h : s.inMemory a = true) (as : List Nat) :
    checkTarget a (s.grown as) = .ok a.toNat (s.grown as) := by
  have : (s.grown as).addrTrap a = none := State.addrTrap_none.2 h
  simp [checkTarget, this]

theorem resolveWrite_ok {s : State} {m : Mode} {raw : Int} (h : s.addressable m raw = true) (hw : m.writable = true)
    (as : List Nat) : resolveWrite m raw (s.grown as) = .ok (s.target m raw) (s.grown as) := by
  cases m with
  | position => exact checkTarget_ok h as
  | immediate => exact absurd hw (by decide)
  | relative =>
    simp only [State.addressable, Bool.and_eq_true] at h
    show (relativeAddr raw (s.grown as)).andThen checkTarget = _
    rw [relativeAddr_ok h.1]
    exact checkTarget_ok h.2 as

theorem operandsRRW_ok {s : State} {a b c : Mode} (hf : s.fetchable 3 = true)
    (ha : s.addressable a (s.operandWord 1) = true) (hb : s.addressable b (s.operandWord 2) = true)
    (hc : s.addressable c (s.operandWord 3) = true) (hw : c.writable = true) :
    operandsRRW a b c s =
      .ok (s.value a (s.operandWord 1), s.value b (s.operandWord 2), s.target c (s.operandWord 3))
        (s.grown (s.operandAddrs 3 ++ s.reads a (s.operandWord 1) ++ s.reads b (s.operandWord 2))) := by
  have h1 := fetchOperand_ok (k := 1) hf (by omega) []
  have h2 := fetchOperand_ok (k := 2) hf (by omega) ([] ++ [(s.pc + (1 : Nat)).toNat])
  have h3 := fetchOperand_ok (k := 3) hf (by omega) ([] ++ [(s.pc + (1 : Nat)).toNat] ++ [(s.pc + (2 : Nat)).toNat])
  rw [State.grown_nil] at h1
  unfold operandsRRW
  rw [h1]; simp only [Reply.andThen]
  rw [h2]; simp only []
  rw [h3]; simp only []
  rw [resolveRead_ok ha]; simp only []
  rw [resolveRead_ok hb]; simp only []
  rw [resolveWrite_ok hc hw]
  rfl

theorem operandsRR_ok {s : State} {a b : Mode} (hf : s.fetchable 2 = true)
    (ha : s.addressable a (s.operandWord 1) = true) (hb : s.addressable b (s.operandWord 2) = true) :
    operandsRR a b s =
      .ok (s.value a (s.operandWord 1), s.value b (s.operandWord 2))
        (s.grown (s.operandAddrs 2 ++ s.reads a (s.operandWord 1) ++ s.reads b (s.operandWord 2))) := by
  have h1 := fetchOperand_ok (k := 1) hf (by omega) []
  have h2 := fetchOperand_ok (k := 2) hf (by omega) ([] ++ [(s.pc + (1 : Nat)).toNat])
  rw [State.grown_nil] at h1
  unfold operandsRR
  rw [h1]; simp only [Reply.andThen]
  rw [h2]; simp only []
  rw [resolveRead_ok ha]; simp only []
  rw [resolveRead_ok hb]
  rfl

theorem operandsR_ok {s : State} {a : Mode} (hf : s.fetchable 1 = true)
    (ha : s.addressable a (s.operandWord 1) = true) :
    operandsR a s = .ok (s.value a (s.operandWord 1)) (s.grown (s.operandAddrs 1 ++ s.reads a (s.operandWord 1))) := by
  have h1 := fetchOperand_ok (k := 1) hf (by omega) []
  rw [State.grown_nil] at h1
  unfold operandsR
  rw [h1]; simp only [Reply.andThen]
  rw [resolveRead_ok ha]
  rfl

theorem operandsW_ok {s : State} {a : Mode} (hf : s.fetchable 1 = true)
    (ha : s.addressable a (s.operandWord 1) = true) (hw : a.writable = true) :
    operandsW a s = .ok (s.target a (s.operandWord 1)) (s.grown (s.operandAddrs 1)) := by
  have h1 := fetchOperand_ok (k := 1) hf (by omega) []
  rw [State.grown_nil] at h1
  unfold operandsW
  rw [h1]; simp only [Reply.andThen]
  rw [resolveWrite_ok ha hw]
  rfl

end Sys2Proof.Machine
end

