-- ==== Sys2Proof/Laws/Step.lean ====
section
/-! SUPPORT. What executing an instruction can do, said once (`exec_cases`), and what a step can do (`step_cases`). -/

namespace Sys2Proof.Machine

/-- The value an instruction of format `RRW` stores (R150, R151, R190, R191). -/
def State.storedValue (s : State) : Instr → Int
  | .add a b _ => s.value a (s.operandWord 1) + s.value b (s.operandWord 2)
  | .mul a b _ => s.value a (s.operandWord 1) * s.value b (s.operandWord 2)
  | .lessThan a b _ => if s.value a (s.operandWord 1) < s.value b (s.operandWord 2) then 1 else 0
  | .equals a b _ => if s.value a (s.operandWord 1) = s.value b (s.operandWord 2) then 1 else 0
  | .input _ | .output _ | .jumpIfTrue _ _ | .jumpIfFalse _ _ | .adjustBase _ | .halt => 0

/-- The cell an instruction of format `RRW` or `W` stores to. -/
def State.storedAt (s : State) : Instr → Nat
  | .add _ _ c | .mul _ _ c | .lessThan _ _ c | .equals _ _ c => s.target c (s.operandWord 3)
  | .input a => s.target a (s.operandWord 1)
  | .output _ | .jumpIfTrue _ _ | .jumpIfFalse _ _ | .adjustBase _ | .halt => 0

/-- Where a jump goes (R183). -/
def State.jumpsTo (s : State) : Instr → Int
  | .jumpIfTrue a b => if s.value a (s.operandWord 1) = 0 then s.pc + 3 else s.value b (s.operandWord 2)
  | .jumpIfFalse a b => if s.value a (s.operandWord 1) = 0 then s.value b (s.operandWord 2) else s.pc + 3
  | .add _ _ _ | .mul _ _ _ | .lessThan _ _ _ | .equals _ _ _ | .input _ | .output _ | .adjustBase _ | .halt => 0

/-- Everything executing `i` in `s` can lead to: fault entry after some reads, or the one commit the instruction has. -/
inductive ExecCase (s : State) : Instr → State → Prop where
  | trap (i : Instr) (g : State) (t : Trap) (hg : Grown s g) : ExecCase s i (g.raise t)
  | store (i : Instr) (g : State) (hi : i.opcode.format = .rrw) (hg : Grown s g)
      (hm : s.inMemory (s.storedAt i : Int) = true) (hv : s.fits (s.storedValue i) = true)
      (hp : s.fits (s.pc + 4) = true) : ExecCase s i (g.stored (s.storedAt i) (s.storedValue i) 4)
  | consume (a : Mode) (g : State) (v : Int) (rest : List Int) (hpol : s.params.policy = .blocking)
      (hq : s.inq = v :: rest) (hg : Grown s g) (hm : s.inMemory (s.storedAt (.input a) : Int) = true)
      (hv : s.fits v = true) (hp : s.fits (s.pc + 2) = true) :
      ExecCase s (.input a) { g.stored (s.storedAt (.input a)) v 2 with inq := rest }
  | suspend (a : Mode) (hpol : s.params.policy = .blocking) (hq : s.inq = []) : ExecCase s (.input a) s.suspend
  | latchHalt (a : Mode) (hpol : s.params.policy = .latch) : ExecCase s (.input a) s.halt
  | output (a : Mode) (g : State) (hg : Grown s g) (hroom : s.outRoom = true) (hp : s.fits (s.pc + 2) = true) :
      ExecCase s (.output a)
        { g.retire (s.pc + 2) with
          outq := s.outq ++ [s.value a (s.operandWord 1)], latch := some (s.value a (s.operandWord 1)) }
  | jump (i : Instr) (g : State) (hi : i.opcode.format = .rr) (hg : Grown s g) (hp : s.fits (s.jumpsTo i) = true) :
      ExecCase s i (g.retire (s.jumpsTo i))
  | adjust (a : Mode) (g : State) (hg : Grown s g) (hr : s.fits (s.rb + s.value a (s.operandWord 1)) = true)
      (hp : s.fits (s.pc + 2) = true) :
      ExecCase s (.adjustBase a) { g.retire (s.pc + 2) with rb := s.rb + s.value a (s.operandWord 1) }
  | halt : ExecCase s .halt s.halt

/-- The end of a step whose operands are known: every trap is fault entry, and the commit is given the value. -/
theorem Reply.Reads.finish {α : Type} {r : Reply α} {s : State} {p : α → Prop} {commit : α → State → Result} {i : Instr}
    (h : r.Reads s p) (hc : ∀ a g, Grown s g → p a → ∃ t, commit a g = .next t ∧ ExecCase s i t) :
    ∃ t, r.finish commit = .next t ∧ ExecCase s i t := by
  cases r with
  | ok a g => exact hc a g h.1 h.2
  | trap t g => exact ⟨_, rfl, .trap i g t h⟩

/-- The guarded commit answers the commit, or fault entry with `ResourceLimit`. -/
theorem State.commit_cases {s g : State} {i : Instr} {b : Bool} {t : State} (hg : Grown s g)
    (h : b = true → ExecCase s i t) : ∃ u, g.commit b t = .next u ∧ ExecCase s i u := by
  unfold State.commit
  split
  · next hb => exact ⟨t, rfl, h hb⟩
  · exact ⟨_, rfl, .trap i g _ hg⟩

theorem cellOfBool_decide (p : Prop) [Decidable p] : cellOfBool (decide p) = if p then 1 else 0 := by
  by_cases h : p <;> simp [cellOfBool, h]

theorem commitStore_cases {s g : State} {i : Instr} (hi : i.opcode.format = .rrw) (hg : Grown s g)
    (hm : s.inMemory (s.storedAt i : Int) = true) :
    ∃ t, g.commitStore (s.storedAt i) (s.storedValue i) = .next t ∧ ExecCase s i t := by
  refine State.commit_cases hg fun hb => ?_
  simp only [Bool.and_eq_true] at hb
  have hg' := hg
  obtain ⟨n, -, rfl, -⟩ := hg'
  exact .store i _ hi hg hm hb.1 hb.2

theorem commitJump_cases {s g : State} {i : Instr} (hi : i.opcode.format = .rr) (hg : Grown s g) :
    ∃ t, g.commitJump (s.jumpsTo i) = .next t ∧ ExecCase s i t := by
  refine State.commit_cases hg fun hb => ?_
  have hg' := hg
  obtain ⟨n, -, rfl, -⟩ := hg'
  exact .jump i _ hi hg hb

/-- Executing an instruction always answers a next state, and it is one of the cases of `ExecCase`. -/
theorem exec_cases (i : Instr) (s : State) : ∃ t, exec i s = .next t ∧ ExecCase s i t := by
  cases i with
  | add a b c =>
    refine (operandsRRW_reads a b c s).finish fun v g hg hv => ?_
    obtain ⟨rfl, hm⟩ := hv
    exact commitStore_cases (i := .add a b c) rfl hg hm
  | mul a b c =>
    refine (operandsRRW_reads a b c s).finish fun v g hg hv => ?_
    obtain ⟨rfl, hm⟩ := hv
    exact commitStore_cases (i := .mul a b c) rfl hg hm
  | lessThan a b c =>
    refine (operandsRRW_reads a b c s).finish fun v g hg hv => ?_
    obtain ⟨rfl, hm⟩ := hv
    have := commitStore_cases (i := .lessThan a b c) rfl hg hm
    simp only [lessCell, cellOfBool_decide]
    exact this
  | equals a b c =>
    refine (operandsRRW_reads a b c s).finish fun v g hg hv => ?_
    obtain ⟨rfl, hm⟩ := hv
    have := commitStore_cases (i := .equals a b c) rfl hg hm
    simp only [equalCell, cellOfBool_decide]
    exact this
  | input a =>
    show ∃ t, execInput a s = .next t ∧ _
    unfold execInput
    split
    · next hpol => exact ⟨_, rfl, .latchHalt a hpol⟩
    · next hpol =>
      split
      · next hq => exact ⟨_, rfl, .suspend a hpol hq⟩
      · next v rest hq =>
        refine (operandsW_reads a s).finish fun x g hg hx => ?_
        obtain ⟨rfl, hm⟩ := hx
        refine State.commit_cases hg fun hb => ?_
        simp only [Bool.and_eq_true] at hb
        have hg' := hg
        obtain ⟨n, -, rfl, -⟩ := hg'
        exact .consume a _ v rest hpol hq hg hm hb.1 hb.2
  | output a =>
    refine (operandsR_reads a s).finish fun v g hg hv => ?_
    subst hv
    refine State.commit_cases hg fun hb => ?_
    simp only [Bool.and_eq_true] at hb
    have hg' := hg
    obtain ⟨n, -, rfl, -⟩ := hg'
    exact .output a _ hg hb.1 hb.2
  | jumpIfTrue a b =>
    refine (operandsRR_reads a b s).finish fun v g hg hv => ?_
    subst hv
    have := commitJump_cases (i := .jumpIfTrue a b) rfl hg
    have hpc : g.pc = s.pc := by obtain ⟨n, -, rfl, -⟩ := hg; rfl
    by_cases hz : s.value a (s.operandWord 1) = 0 <;>
      simpa [State.jumpsTo, jumpTarget, conditionTrue, hz, hpc] using this
  | jumpIfFalse a b =>
    refine (operandsRR_reads a b s).finish fun v g hg hv => ?_
    subst hv
    have := commitJump_cases (i := .jumpIfFalse a b) rfl hg
    have hpc : g.pc = s.pc := by obtain ⟨n, -, rfl, -⟩ := hg; rfl
    by_cases hz : s.value a (s.operandWord 1) = 0 <;>
      simpa [State.jumpsTo, jumpTarget, conditionTrue, hz, hpc] using this
  | adjustBase a =>
    refine (operandsR_reads a s).finish fun v g hg hv => ?_
    subst hv
    refine State.commit_cases hg fun hb => ?_
    simp only [Bool.and_eq_true] at hb
    have hg' := hg
    obtain ⟨n, -, rfl, -⟩ := hg'
    exact .adjust a _ hg hb.1 hb.2
  | halt => exact ⟨_, rfl, .halt⟩

/-- If executing `i` answers `t`, then `t` is one of the cases. -/
theorem ExecCase.of_exec {i : Instr} {s t : State} (h : exec i s = .next t) : ExecCase s i t := by
  obtain ⟨u, hu, hc⟩ := exec_cases i s
  rw [h] at hu
  cases hu
  exact hc

/-- Everything a step of a `Running` core can lead to. -/
inductive StepCase (s : State) : State → Prop where
  /-- R131: no word could be fetched. -/
  | fetchTrap (t : Trap) (ht : s.addrTrap s.pc = some t) : StepCase s (s.raise t)
  /-- R132: the word is illegal. -/
  | decodeTrap (c : DecodeCause) (hm : s.inMemory s.pc = true) (hd : decode (s.mem.load s.pc.toNat) = .illegal c) :
      StepCase s ((s.grow s.pc.toNat).raise { cause := .decode c })
  /-- The word decodes, and the instruction is executed. -/
  | execute (i : Instr) (t : State) (hi : s.holds i) (he : exec i (s.grow s.pc.toNat) = .next t)
      (hc : ExecCase (s.grow s.pc.toNat) i t) : StepCase s t

/-- A `Running` core's step runs the instruction it has fetched and decoded. -/
theorem step_of_holds {s : State} {i : Instr} (hr : s.fsm = .running) (h : s.holds i) :
    step s = exec i (s.grow s.pc.toNat) := by
  simp [step, hr, fetchDecode, memRead_ok h.1, Reply.andThen, decodePhase, h.2, Reply.finish]

/-- A step always answers a next state; of a `Running` core it is one of the cases of `StepCase`. -/
theorem step_cases {s : State} (hr : s.fsm = .running) : ∃ t, step s = .next t ∧ StepCase s t := by
  cases ht : s.addrTrap s.pc with
  | some t =>
    refine ⟨_, ?_, .fetchTrap t ht⟩
    simp [step, hr, fetchDecode, memRead_trap ht, Reply.andThen, Reply.finish]
  | none =>
    have hm := State.addrTrap_none.1 ht
    cases hd : decode (s.mem.load s.pc.toNat) with
    | illegal c =>
      refine ⟨_, ?_, .decodeTrap c hm hd⟩
      simp [step, hr, fetchDecode, memRead_ok hm, Reply.andThen, decodePhase, hd, Reply.finish]
    | instr i =>
      obtain ⟨t, he, hc⟩ := exec_cases i (s.grow s.pc.toNat)
      exact ⟨t, by rw [step_of_holds hr ⟨hm, hd⟩, he], .execute i t ⟨hm, hd⟩ he hc⟩

theorem StepCase.of_step {s t : State} (hr : s.fsm = .running) (h : step s = .next t) : StepCase s t := by
  obtain ⟨u, hu, hc⟩ := step_cases hr
  rw [h] at hu
  cases hu
  exact hc

/-- A core that is not `Running` stays as it is (R139). -/
theorem step_idle {s : State} (hr : s.fsm ≠ .running) : step s = .next s := by
  unfold step idle
  split <;> first | rfl | contradiction

end Sys2Proof.Machine
end

