-- ==== Sys2Proof/Laws/HostInterface.lean ====
section
/-! SUPPORT. What a host operation that is accepted can have done, said once. -/

namespace Sys2Proof.Machine

/-- An operation between runs was accepted: the core is not `Running`. -/
theorem State.between_accepted {α : Type} {s : State} {h : HostAnswer α} {a : α} (hb : s.between h = .accepted a) :
    s.fsm ≠ .running ∧ h = .accepted a := by
  unfold State.between at hb
  split at hb
  · cases hb
  · exact ⟨‹_›, hb⟩

theorem State.between_idle {α : Type} {s : State} (h : HostAnswer α) (hr : s.fsm ≠ .running) : s.between h = h := by
  simp [State.between, hr]

theorem State.between_running {α : Type} {s : State} (h : HostAnswer α) (hr : s.fsm = .running) :
    s.between h = .refused .whileRunning := by
  simp [State.between, hr]

/-- The states that an accepted host operation can leave (R211, R215, R221 to R224). -/
inductive HostCase (s : State) : HostOp → State → Prop where
  | reset : HostCase s .reset (State.initial s.params)
  | push (vs : List Int) (hf : ∀ v ∈ vs, s.fits v = true)
      (hd : withinCap s.params.inDepth (s.inq.length + vs.length) = true) : HostCase s (.push vs) { s with inq := s.inq ++ vs }
  | pop : HostCase s .pop { s with outq := s.outq.tail }
  | drain : HostCase s .drain { s with outq := [] }
  | start (h : s.fsm = .ready ∨ s.fsm = .blocked) : HostCase s .go { s with fsm := .running }
  | noRun (h : s.fsm = .halted ∨ s.fsm = .faulted) : HostCase s .go s
  | observe : HostCase s .observe s

theorem State.push_accepted {s t : State} {vs : List Int} (h : s.push vs = .accepted t) :
    s.fsm ≠ .running ∧ HostCase s (.push vs) t := by
  obtain ⟨hr, hb⟩ := State.between_accepted h
  refine ⟨hr, ?_⟩
  split at hb
  · cases hb
  split at hb
  · cases hb
  next hf hd =>
  cases hb
  simp only [Bool.not_eq_true, Bool.not_eq_false', List.all_eq_true] at hf hd
  exact .push vs hf hd

theorem State.go_accepted {s t : State} (h : s.go = .accepted t) : s.fsm ≠ .running ∧ HostCase s .go t := by
  obtain ⟨hr, hb⟩ := State.between_accepted h
  refine ⟨hr, ?_⟩
  simp only [HostAnswer.accepted.injEq] at hb
  subst hb
  split
  · next hf => exact .start (.inl hf)
  · next hf => exact .start (.inr hf)
  · next hf => exact absurd hf hr
  · next hf => exact .noRun (.inl hf)
  · next hf => exact .noRun (.inr hf)

/-- An accepted host operation was made between runs, and left one of the states of `HostCase`. -/
theorem hostApply_accepted {o : HostOp} {s t : State} (h : hostApply o s = .accepted t) :
    s.fsm ≠ .running ∧ HostCase s o t := by
  by_cases hr : s.fsm = .running
  · cases o <;> simp [hostApply, State.hostReset, State.push, State.pop, State.drain, State.go, State.observe,
      State.between_running _ hr, HostAnswer.andThen] at h
  · refine ⟨hr, ?_⟩
    cases o with
    | reset =>
      simp only [hostApply, State.hostReset, State.between_idle _ hr, HostAnswer.accepted.injEq] at h
      subst h; exact .reset
    | push vs => exact (State.push_accepted h).2
    | pop =>
      simp only [hostApply, State.pop, State.between_idle _ hr, HostAnswer.andThen, HostAnswer.accepted.injEq] at h
      subst h; exact .pop
    | drain =>
      simp only [hostApply, State.drain, State.between_idle _ hr, HostAnswer.andThen, HostAnswer.accepted.injEq] at h
      subst h; exact .drain
    | go => exact (State.go_accepted h).2
    | observe =>
      simp only [hostApply, State.observe, State.between_idle _ hr, HostAnswer.andThen, HostAnswer.accepted.injEq] at h
      subst h; exact .observe

/-- What construction checks, and the state it gives (R5, R290). -/
theorem State.construct_accepted {p : Params} {seed : List Int} {s : State} (h : State.construct p seed = .accepted s) :
    p.width ≠ some 0 ∧ (∀ v ∈ p.image, p.fits v = true) ∧ (∀ v ∈ seed, p.fits v = true) ∧
    withinCap p.memCap p.image.length = true ∧ withinCap p.inDepth seed.length = true ∧
    s = { State.initial p with inq := seed } := by
  unfold State.construct at h
  split at h
  · cases h
  split at h
  · cases h
  split at h
  · cases h
  split at h
  · cases h
  next h1 h2 h3 h4 =>
  simp only [HostAnswer.accepted.injEq] at h
  simp only [Bool.not_eq_true, Bool.not_eq_false', Bool.and_eq_true, List.all_eq_true] at h2 h3 h4
  exact ⟨h1, h2.1, h2.2, h3, h4, h.symm⟩

/-- A core that is not between runs of its own accord returns at once from the loop (R212 to R214). -/
theorem runLoop_ended {s : State} {st : Status} (h : s.fsm.status = some st) (fuel : Nat) : runLoop fuel s = .returned st s := by
  cases fuel <;> simp [runLoop, h]

end Sys2Proof.Machine
end

