-- ==== Sys2Proof/Laws/Composition.lean ====
section
/-! SUPPORT. What an operation on a composition that is done can have done, said once (`Net.atCore_done`), and what putting one core
back changes. -/

namespace Sys2Proof.Machine

theorem NetAnswer.map_done {α β : Type} {f : α → β} {h : NetAnswer α} {b : β} (hm : h.map f = .done b) :
    ∃ a, h = .done a ∧ f a = b := by
  cases h with
  | done a => cases hm; exact ⟨a, rfl, rfl⟩
  | refused r => cases hm

theorem HostAnswer.toNet_done {α : Type} {h : HostAnswer α} {a : α} (ht : h.toNet = .done a) : h = .accepted a := by
  cases h <;> cases ht
  rfl

/-- A list without repeats is one that `distinct` accepts. -/
theorem distinct_iff_nodup (l : List Nat) : distinct l = true ↔ l.Nodup := by
  induction l with
  | nil => simp [distinct]
  | cons x l ih => simp [distinct, ih, List.nodup_cons]

/-- No transition without a legal wiring (R238). -/
theorem Net.atCore_unwired {α : Type} {n : Net} (h : n.wired = false) (k : Nat) (f : Node → State → NetAnswer (α × State)) :
    n.atCore k f = .refused .badWiring := by
  simp [Net.atCore, h]

theorem Net.atCore_wired {α : Type} {n : Net} {k : Nat} {d : Node} (h : n.wired = true) (hd : n.nodes[k]? = some d)
    (f : Node → State → NetAnswer (α × State)) :
    n.atCore k f = (f d (n.view d)).map fun r => (r.1, n.putBack k d r.2) := by
  simp [Net.atCore, h, hd]

/-- What an operation that is done has done: core `k` has become some `t`, in a composition that is wired. -/
theorem Net.atCore_done {α : Type} {n n' : Net} {k : Nat} {f : Node → State → NetAnswer (α × State)} {a : α}
    (h : n.atCore k f = .done (a, n')) :
    n.wired = true ∧ ∃ d t, n.nodes[k]? = some d ∧ f d (n.view d) = .done (a, t) ∧ n' = n.putBack k d t := by
  cases hw : n.wired with
  | false => rw [Net.atCore_unwired hw] at h; cases h
  | true =>
    cases hd : n.nodes[k]? with
    | none => simp [Net.atCore, hw, hd] at h
    | some d =>
      rw [Net.atCore_wired hw hd] at h
      obtain ⟨⟨a', t⟩, ht, he⟩ := NetAnswer.map_done h
      cases he
      exact ⟨rfl, d, t, rfl, ht, rfl⟩

/-- What a legal wiring says of one core. -/
theorem Net.wired_node {n : Net} (h : n.wired = true) {d : Node} (hd : d ∈ n.nodes) :
    d.inFifo < n.fifos.length ∧ d.outFifo < n.fifos.length ∧ d.inFifo ≠ d.outFifo ∧ d.core.inq = [] ∧ d.core.outq = [] := by
  simp only [Net.wired, Bool.and_eq_true, List.all_eq_true, decide_eq_true_eq, List.isEmpty_iff, bne_iff_ne] at h
  obtain ⟨⟨⟨⟨h1, h2⟩, h3⟩, h4⟩, h5⟩ := h.1.1 d hd
  exact ⟨h1, h2, h3, h4, h5⟩

/-! ## Putting one core back -/

theorem Net.putBack_node_ne (n : Net) {k j : Nat} (d : Node) (t : State) (h : j ≠ k) :
    (n.putBack k d t).nodes[j]? = n.nodes[j]? := by
  simp only [Net.putBack]
  rw [List.getElem?_set_ne (Ne.symm h)]

theorem Net.putBack_fifo_ne (n : Net) (k : Nat) {d : Node} (t : State) {f : Nat} (hi : f ≠ d.inFifo) (ho : f ≠ d.outFifo) :
    (n.putBack k d t).fifo f = n.fifo f := by
  simp only [Net.fifo, Net.putBack, List.getD]
  rw [List.getElem?_set_ne (Ne.symm ho), List.getElem?_set_ne (Ne.symm hi)]

theorem Net.putBack_fifo_in (n : Net) (k : Nat) {d : Node} (t : State) (hi : d.inFifo < n.fifos.length)
    (hne : d.inFifo ≠ d.outFifo) : (n.putBack k d t).fifo d.inFifo = t.inq := by
  simp only [Net.fifo, Net.putBack, List.getD]
  rw [List.getElem?_set_ne (Ne.symm hne), List.getElem?_set_self hi]
  rfl

theorem Net.putBack_fifo_out (n : Net) (k : Nat) {d : Node} (t : State) (ho : d.outFifo < n.fifos.length) :
    (n.putBack k d t).fifo d.outFifo = t.outq := by
  simp only [Net.fifo, Net.putBack, List.getD]
  rw [List.getElem?_set_self (by simpa using ho)]
  rfl

@[simp] theorem Net.putBack_fifos_length (n : Net) (k : Nat) (d : Node) (t : State) :
    (n.putBack k d t).fifos.length = n.fifos.length := by simp [Net.putBack]

theorem Net.putBack_topology {n : Net} {k : Nat} {d : Node} (hd : n.nodes[k]? = some d) (t : State) :
    (n.putBack k d t).topology = n.topology := by
  apply List.ext_getElem?
  intro j
  simp only [Net.topology, List.getElem?_map]
  by_cases h : j = k
  · subst h
    obtain ⟨hlt, -⟩ := List.getElem?_eq_some_iff.1 hd
    simp only [Net.putBack, List.getElem?_set_self hlt, hd]
    rfl
  · rw [Net.putBack_node_ne n d t h]

/-- Wiring is a matter of the topology, the number of FIFOs, and each core's own queues being empty. -/
theorem Net.wired_iff (n : Net) : n.wired = true ↔
    (∀ p ∈ n.topology, p.1 < n.fifos.length ∧ p.2 < n.fifos.length ∧ p.1 ≠ p.2) ∧
    (∀ d ∈ n.nodes, d.core.inq = [] ∧ d.core.outq = []) ∧
    (n.topology.map Prod.fst).Nodup ∧ (n.topology.map Prod.snd).Nodup := by
  have h1 : n.topology.map Prod.fst = n.nodes.map Node.inFifo := by simp [Net.topology]
  have h2 : n.topology.map Prod.snd = n.nodes.map Node.outFifo := by simp [Net.topology]
  rw [h1, h2, ← distinct_iff_nodup, ← distinct_iff_nodup]
  simp only [Net.wired, Net.topology, Bool.and_eq_true, List.all_eq_true, decide_eq_true_eq, List.isEmpty_iff, bne_iff_ne,
    List.mem_map, forall_exists_index, and_imp, forall_apply_eq_imp_iff₂]
  constructor
  · rintro ⟨⟨h, h3⟩, h4⟩
    exact ⟨fun d hd => ⟨(h d hd).1.1.1.1, (h d hd).1.1.1.2, (h d hd).1.1.2⟩, fun d hd => ⟨(h d hd).1.2, (h d hd).2⟩, h3, h4⟩
  · rintro ⟨h, hq, h3, h4⟩
    exact ⟨⟨fun d hd => ⟨⟨⟨⟨(h d hd).1, (h d hd).2.1⟩, (h d hd).2.2⟩, (hq d hd).1⟩, (hq d hd).2⟩, h3⟩, h4⟩

/-- Putting a core back keeps the wiring legal. -/
theorem Net.putBack_wired {n : Net} {k : Nat} {d : Node} (h : n.wired = true) (hd : n.nodes[k]? = some d) (t : State) :
    (n.putBack k d t).wired = true := by
  rw [Net.wired_iff] at h ⊢
  rw [Net.putBack_topology hd, Net.putBack_fifos_length]
  refine ⟨h.1, fun e he => ?_, h.2.2⟩
  rcases List.mem_or_eq_of_mem_set he with he | rfl
  · exact h.2.1 e he
  · exact ⟨rfl, rfl⟩

/-- Putting a core back with other queues and nothing else changed leaves the nodes as they were. -/
theorem Net.putBack_queues {n : Net} {k : Nat} {d : Node} (h : n.wired = true) (hd : n.nodes[k]? = some d) (q o : List Int) :
    n.putBack k d { n.view d with inq := q, outq := o } = { n with fifos := (n.fifos.set d.inFifo q).set d.outFifo o } := by
  obtain ⟨-, -, -, h1, h2⟩ := Net.wired_node h (List.mem_of_getElem? hd)
  have he : ({ d with core := { n.view d with inq := [], outq := [] } } : Node) = d := by
    cases d with | mk c i o => cases c; simp only at h1 h2; subst h1 h2; rfl
  obtain ⟨hlt, hk⟩ := List.getElem?_eq_some_iff.1 hd
  simp only [Net.putBack, Net.view] at he ⊢
  rw [he, ← hk, List.set_getElem_self]

theorem Net.fifo_set_self (n : Net) (f : Nat) : n.fifos.set f (n.fifo f) = n.fifos := by
  by_cases h : f < n.fifos.length
  · simp [Net.fifo, List.getD, h]
  · exact List.set_eq_of_length_le (Nat.le_of_not_lt h)

/-- Putting a core back as it was changes nothing. -/
theorem Net.putBack_view {n : Net} {k : Nat} {d : Node} (h : n.wired = true) (hd : n.nodes[k]? = some d) :
    n.putBack k d (n.view d) = n := by
  have := Net.putBack_queues h hd (n.fifo d.inFifo) (n.fifo d.outFifo)
  rwa [Net.fifo_set_self, Net.fifo_set_self] at this

end Sys2Proof.Machine
end

