-- ==== Sys2Proof/Laws/Decode.lean ====
section
/-! SUPPORT. The opcode map and the mode digits read both ways. -/

namespace Sys2Proof

/-- The two readings of the opcode map R86 agree. -/
theorem opcodeOf_eq_some {n : Nat} {o : Opcode} : opcodeOf n = some o ↔ n = o.number := by
  constructor
  · intro h
    unfold opcodeOf at h
    split at h <;> simp at h <;> subst h <;> rfl
  · rintro rfl
    cases o <;> rfl

theorem Mode.digit_le (m : Mode) : m.digit ≤ 2 := by cases m <;> decide

@[simp] theorem modeOf_digit (m : Mode) : modeOf m.digit = m := by cases m <;> rfl

theorem Mode.digit_modeOf {d : Nat} (h : d ≤ 2) : (modeOf d).digit = d := by
  obtain rfl | rfl | rfl : d = 0 ∨ d = 1 ∨ d = 2 := by omega
  all_goals rfl

/-- A mode is writable exactly when its digit is not 1 (R90). -/
theorem Mode.writable_iff (m : Mode) : m.writable = true ↔ m.digit ≠ 1 := by cases m <;> decide

/-- The digits of a number put together from its two low digits and three mode digits (R83). -/
theorem digits_of_sum {o a b c : Nat} (ho : o < 100) (ha : a ≤ 2) (hb : b ≤ 2) (hc : c ≤ 2) :
    digs (o + 100 * a + 1000 * b + 10000 * c) 1 0 = o ∧ modeDigit (o + 100 * a + 1000 * b + 10000 * c) 1 = a ∧
    modeDigit (o + 100 * a + 1000 * b + 10000 * c) 2 = b ∧ modeDigit (o + 100 * a + 1000 * b + 10000 * c) 3 = c ∧
    (o + 100 * a + 1000 * b + 10000 * c) / 100000 = 0 := by
  simp only [digs, modeDigit, dig]
  norm_num
  omega

/-- A word below 100000 is its two low digits and its three mode digits (R83). -/
theorem sum_of_digits {n : Nat} (h : n / 100000 = 0) :
    n = digs n 1 0 + 100 * modeDigit n 1 + 1000 * modeDigit n 2 + 10000 * modeDigit n 3 := by
  simp only [digs, modeDigit, dig]
  norm_num
  omega

theorem Opcode.number_lt (o : Opcode) : o.number < 100 := by cases o <;> decide

end Sys2Proof
end

