-- ==== Sys2Proof/Laws/Effects.lean ====
section
/-! SUPPORT. The ends of a step in the vocabulary of Safety.lean: trace, store, fault entry and jump as whole states. -/

namespace Sys2Proof.Machine

/-- The trace after a step whose word was fetched (R38). -/
theorem State.trace_append {s : State} (h : s.inMemory s.pc = true) : s.trace ++ s.traceEntry = s.traceAfter := by
  simp only [State.traceEntry, State.instrWord_eq h, State.traceAfter]
  split <;> simp

theorem State.not_inMemory_of_addrTrap {s : State} {a : Int} {t : Trap} (h : s.addrTrap a = some t) :
    s.inMemory a ≠ true := by
  intro hm
  rw [State.addrTrap_none.2 hm] at h
  cases h

/-- No trace entry when no word was fetched (R38). -/
theorem State.traceEntry_unfetched {s : State} (h : s.inMemory s.pc ≠ true) : s.traceEntry = [] := by
  have : s.instrWord = none := by
    cases ht : s.addrTrap s.pc with
    | none => exact absurd (State.addrTrap_none.1 ht) h
    | some t => simp [State.instrWord, ht]
  simp [State.traceEntry, this]

theorem State.traceEntry_off {s : State} (h : s.params.traceEn = false) : s.traceEntry = [] := by
  unfold State.traceEntry
  split <;> simp [h]

/-- The commit of a store, as a whole state. -/
theorem State.stored_grown {s : State} (as : List Nat) (adr : Nat) (v len : Int) (h : s.inMemory s.pc = true) :
    (s.grown as).stored adr v len =
      { s with
        pc := s.pc + len
        mem := s.mem.store adr v
        mlen := s.lengthAfter (as ++ [adr])
        trace := s.traceAfter } := by
  rw [← State.trace_append h, State.lengthAfter_append]
  rfl

/-- Fault entry after the accesses `as`, as a whole state (R270, R271). -/
theorem State.raise_grown {s : State} (as : List Nat) (t : Trap) (h : s.inMemory s.pc = true) :
    (s.grown as).raise t = s.afterFault t.cause t.addr as := by
  have hw : (s.grown as).instrWord = some (s.mem.load s.pc.toNat) := State.instrWord_eq (s := s.grown as) h
  have hd : ∀ n, digs n 1 0 = n % 100 := by intro n; simp [digs]
  simp only [State.raise, State.faultRecord, hw, State.afterFault, ← State.trace_append h, State.logged, opcodeField,
    Option.bind, hd]
  rfl

/-- ADD, MUL, LESS-THAN and EQUALS retire where the limits allow it. -/
theorem commitStore_grown {s : State} (as : List Nat) (adr : Nat) (v : Int) (h : s.inMemory s.pc = true)
    (hv : s.fits v = true) (hp : s.fits (s.pc + 4) = true) :
    (s.grown as).commitStore adr v =
      .next { s with
        pc := s.pc + 4
        mem := s.mem.store adr v
        mlen := s.lengthAfter (as ++ [adr])
        trace := s.traceAfter } := by
  have hv' : (s.grown as).fits v = true := hv
  have hp' : (s.grown as).fits ((s.grown as).pc + 4) = true := hp
  rw [State.commitStore, State.commit, hv', hp', ← State.stored_grown as adr v 4 h]
  rfl

/-- A jump retires where the limits allow it. -/
theorem commitJump_grown {s : State} (as : List Nat) (p : Int) (h : s.inMemory s.pc = true) (hp : s.fits p = true) :
    (s.grown as).commitJump p = .next { s with pc := p, mlen := s.lengthAfter as, trace := s.traceAfter } := by
  have hp' : (s.grown as).fits p = true := hp
  rw [State.commitJump, State.commit, hp', ← State.trace_append h]
  rfl

/-- A read operand with a negative effective address traps (R118). -/
theorem resolveRead_negative {s : State} {m : Mode} {raw x : Int} (h : s.negativeOperand m raw x) (as : List Nat) :
    resolveRead m raw (s.grown as) = .trap { cause := .negativeAddress, addr := some x } (s.grown as) := by
  obtain ⟨he, hx, hr⟩ := h
  have ht := State.addrTrap_negative (s.grown as) hx
  cases m with
  | position => cases he; simp [resolveRead, memRead, ht]
  | immediate => cases he
  | relative => cases he; simp [resolveRead, relativeAddr_ok (hr rfl), Reply.andThen, memRead, ht]

/-- A write operand with a negative effective address traps (R118). -/
theorem resolveWrite_negative {s : State} {m : Mode} {raw x : Int} (h : s.negativeOperand m raw x) (as : List Nat) :
    resolveWrite m raw (s.grown as) = .trap { cause := .negativeAddress, addr := some x } (s.grown as) := by
  obtain ⟨he, hx, hr⟩ := h
  have ht := State.addrTrap_negative (s.grown as) hx
  cases m with
  | position => cases he; simp [resolveWrite, checkTarget, ht]
  | immediate => cases he
  | relative => cases he; simp [resolveWrite, relativeAddr_ok (hr rfl), Reply.andThen, checkTarget, ht]

/-- The value of an operand whose raw word is a cell is itself the content of a cell. -/
theorem State.value_is_cell (s : State) (m : Mode) (raw : Int) (hr : ∃ x, raw = s.mem.load x) :
    ∃ x, s.value m raw = s.mem.load x := by
  cases m with
  | position => exact ⟨_, rfl⟩
  | immediate => exact hr
  | relative => exact ⟨_, rfl⟩

end Sys2Proof.Machine
end

