-- ==== Sys2Proof/Laws/Invariant.lean ====
section
/-! SUPPORT. The shared updates keep the invariant. -/

namespace Sys2Proof.Machine

theorem State.Inv.trace_append_off {s : State} (h : s.Inv) (ht : s.params.traceEn = false) :
    s.trace ++ s.traceEntry = [] := by
  rw [State.traceEntry_off ht, h.trace_off ht]
  rfl

/-- No fault record outside `Faulted` (R32, R273). -/
theorem State.Inv.fault_none {s : State} (h : s.Inv) (hr : s.fsm ≠ .faulted) : s.fault = none := by
  have := h.fault_iff
  cases hf : s.fault with
  | none => rfl
  | some f => rw [hf] at this; exact absurd (this.1 rfl) hr

/-- Reads keep the invariant. -/
theorem State.Inv.grown {s s' : State} (h : s.Inv) (hg : Grown s s') : s'.Inv := by
  obtain ⟨n, hn, rfl, hc⟩ := hg
  exact { h with
    beyond_length := fun a ha => h.beyond_length a (Nat.le_trans hn ha), length_cap := hc h.length_cap }

/-- Fault entry keeps the invariant. -/
theorem State.Inv.raise {s : State} (h : s.Inv) (t : Trap) : (s.raise t).Inv := by
  refine ⟨h.memory_wf, h.beyond_length, h.length_cap, h.image_cap, h.image_fits, h.width_pos, h.pc_fits, h.rb_fits,
    h.cell_fits, h.inq_fits, h.outq_fits, h.inq_depth, h.outq_depth, by simp, ?_, by simp, by simp,
    fun ht => h.trace_append_off ht⟩
  intro f hf
  simp only [State.raise_fault, Option.some.injEq] at hf
  subst hf
  rfl

/-- The commit of a store, which may also shorten the input FIFO, keeps the invariant. -/
theorem State.Inv.stored {s : State} (h : s.Inv) (hr : s.fsm = .running) {adr : Nat} {v len : Int} {q : List Int}
    (hm : s.inMemory (adr : Int) = true) (hv : s.fits v = true) (hp : s.fits (s.pc + len) = true)
    (hq : ∀ v ∈ q, v ∈ s.inq) (hl : q.length ≤ s.inq.length) : State.Inv { s.stored adr v len with inq := q } := by
  have hcap : withinCap s.params.memCap (max s.mlen (adr + 1)) = true := by
    simpa using withinCap_max (a := (adr : Int)) h.length_cap (by omega) (State.inMemory_below hm)
  have hnf := h.fault_none (by rw [hr]; decide)
  have hload := fun b => Memory.load_store h.memory_wf adr v b
  refine ⟨Memory.wf_store h.memory_wf _ _, ?_, hcap, h.image_cap, h.image_fits, h.width_pos, hp, h.rb_fits, ?_,
    fun x hx => h.inq_fits x (hq x hx), h.outq_fits, ?_, h.outq_depth, by simp [hnf, hr], by simp [hnf], by simp [hr],
    by simp [hr], fun ht => h.trace_append_off ht⟩
  · intro a ha
    simp only [State.stored_mlen, State.stored_mem] at ha ⊢
    rw [hload, if_neg (by omega)]
    exact h.beyond_length a (by omega)
  · intro a
    simp only [State.stored_mem]
    rw [hload]
    split
    · exact hv
    · exact h.cell_fits a
  · have := h.inq_depth
    show withinCap s.params.inDepth q.length = true
    unfold withinCap at this ⊢
    cases hd : s.params.inDepth with
    | none => rfl
    | some d => rw [hd] at this; simp only [decide_eq_true_eq] at this ⊢; omega

theorem Params.fits_zero (p : Params) : p.fits 0 = true := by
  unfold Params.fits
  cases hw : p.width with
  | none => rfl
  | some w =>
    have : 0 < 2 ^ (w - 1) := Nat.pos_of_ne_zero (by positivity)
    simp only [Bool.and_eq_true, decide_eq_true_eq]
    omega

/-- The state after construction or reset meets the invariant. -/
theorem State.initial_inv {p : Params} {q : List Int} (hw : p.width ≠ some 0) (hi : ∀ v ∈ p.image, p.fits v = true)
    (hc : withinCap p.memCap p.image.length = true) (hq : ∀ v ∈ q, p.fits v = true)
    (hd : withinCap p.inDepth q.length = true) : State.Inv { State.initial p with inq := q } := by
  have h0 : p.fits 0 = true := Params.fits_zero p
  refine ⟨Memory.wf_ofImage _, ?_, hc, hc, hi, hw, h0, h0, ?_, hq, by simp [State.initial, State.reset], hd, ?_,
    by simp [State.initial, State.reset], by simp [State.initial, State.reset], by simp [State.initial, State.reset],
    by simp [State.initial, State.reset], by simp [State.initial, State.reset]⟩
  · intro a ha
    show (Memory.ofImage p.image).load a = 0
    rw [Memory.load_ofImage]
    simp only [State.initial] at ha
    simp [List.getD, ha]
  · intro a
    show p.fits ((Memory.ofImage p.image).load a) = true
    rw [Memory.load_ofImage]
    by_cases ha : a < p.image.length
    · simp only [List.getD, ha, List.getElem?_eq_getElem, Option.getD_some]
      exact hi _ (List.getElem_mem ha)
    · simp [List.getD, Nat.le_of_not_lt ha, h0]
  · show withinCap p.outDepth 0 = true
    unfold withinCap
    split <;> simp

end Sys2Proof.Machine
end

