-- ==== Sys2Proof/Laws/PerInstr.lean ====
section
/-! SUPPORT. The digits of every instruction's word, one lemma per constructor (R83, R85, R86). -/

namespace Sys2Proof.Laws.WordDigits

/-- The word of `i` is not negative, has no digit of weight `10^5` or above, carries the opcode in its two low digits, and the
mode digits of `i` above them. -/
def Statement (i : Instr) : Prop :=
  ∃ n : Nat, encode i = (n : Int) ∧ n / 100000 = 0 ∧ digs n 1 0 = i.opcode.number ∧
    modeDigit n 1 = i.modeDigits.1 ∧ modeDigit n 2 = i.modeDigits.2.1 ∧ modeDigit n 3 = i.modeDigits.2.2

/-- Any instruction whose three digits are digits of modes, or 0, has them in its word. -/
theorem of_digits {i : Instr} (ha : i.modeDigits.1 ≤ 2) (hb : i.modeDigits.2.1 ≤ 2) (hc : i.modeDigits.2.2 ≤ 2) :
    Statement i := by
  obtain ⟨h0, h1, h2, h3, h4⟩ := digits_of_sum (Opcode.number_lt i.opcode) ha hb hc
  exact ⟨_, rfl, h4, h0, h1, h2, h3⟩

theorem add (a b c : Mode) : Statement (.add a b c) := of_digits a.digit_le b.digit_le c.digit_le
theorem mul (a b c : Mode) : Statement (.mul a b c) := of_digits a.digit_le b.digit_le c.digit_le
theorem input (a : Mode) : Statement (.input a) := of_digits a.digit_le (Nat.zero_le _) (Nat.zero_le _)
theorem output (a : Mode) : Statement (.output a) := of_digits a.digit_le (Nat.zero_le _) (Nat.zero_le _)
theorem jumpIfTrue (a b : Mode) : Statement (.jumpIfTrue a b) := of_digits a.digit_le b.digit_le (Nat.zero_le _)
theorem jumpIfFalse (a b : Mode) : Statement (.jumpIfFalse a b) := of_digits a.digit_le b.digit_le (Nat.zero_le _)
theorem lessThan (a b c : Mode) : Statement (.lessThan a b c) := of_digits a.digit_le b.digit_le c.digit_le
theorem equals (a b c : Mode) : Statement (.equals a b c) := of_digits a.digit_le b.digit_le c.digit_le
theorem adjustBase (a : Mode) : Statement (.adjustBase a) := of_digits a.digit_le (Nat.zero_le _) (Nat.zero_le _)
theorem halt : Statement .halt := of_digits (Nat.zero_le _) (Nat.zero_le _) (Nat.zero_le _)

end Sys2Proof.Laws.WordDigits
end

