-- ==== Sys2Proof/Tests/Slice0.lean ====
section
/-! SUPPORT. The model's own tests, with results taken from spec/ (mostly the vectors of 95_test_vectors.md), and for every
statement of the obligations file that has hypotheses a witness that they can be met together, clause by clause. -/

namespace Sys2Proof.Tests

open Sys2Proof.Machine

/-! ## Helpers -/

/-- A core inside a `run()`, at its first step, with the parameters `p`. -/
def running (p : Params) : State := { State.initial p with fsm := .running }

/-- The same, with R4's default parameters and this image. -/
def prog (image : List Int) : State := running { image := image }

/-- The state a step leaves. -/
def after (s : State) : State :=
  match step s with
  | .next t => t
  | .fault _ => State.reset
  | .refused _ => State.reset

/-- The record of a decode fault at address 0 (95_test_vectors.md, 2.7). -/
def decodeFault (c : DecodeCause) (w : Int) (opcode : Option Nat) : Option FaultRecord :=
  some { cause := .decode c, pc := 0, word := some w, opcode := opcode, addr := none }

/-- The record of an address fault at address 0 (95_test_vectors.md). -/
def addrFault (w : Int) (opcode : Nat) (addr : Int) : Option FaultRecord :=
  some { cause := .negativeAddress, pc := 0, word := some w, opcode := some opcode, addr := some addr }

/-! ## WellFormed refuses what it should (R85, R90) -/

theorem test_add_immediate_target_illformed : (Instr.add .position .position .immediate).wellFormed = false := by decide
theorem test_mul_immediate_target_illformed : (Instr.mul .immediate .immediate .immediate).wellFormed = false := by decide
theorem test_input_immediate_target_illformed : (Instr.input .immediate).wellFormed = false := by decide
theorem test_lessThan_immediate_target_illformed :
    (Instr.lessThan .relative .position .immediate).wellFormed = false := by decide
theorem test_equals_immediate_target_illformed :
    (Instr.equals .position .relative .immediate).wellFormed = false := by decide
theorem test_relative_target_wellformed : (Instr.add .immediate .immediate .relative).wellFormed = true := by decide

/-! ## Decoding: words written out digit by digit from R83 and R86 (`C B A oo`) -/

/-- `2 1 0 01` -/
theorem test_decode_add : decode 21001 = .instr (.add .position .immediate .relative) := by decide
/-- `0 2 1 02` -/
theorem test_decode_mul : decode 2102 = .instr (.mul .immediate .relative .position) := by decide
/-- `0 0 2 03` -/
theorem test_decode_input : decode 203 = .instr (.input .relative) := by decide
/-- `0 0 1 04` -/
theorem test_decode_output : decode 104 = .instr (.output .immediate) := by decide
/-- `0 1 2 05` -/
theorem test_decode_jumpIfTrue : decode 1205 = .instr (.jumpIfTrue .relative .immediate) := by decide
/-- `0 2 1 06` -/
theorem test_decode_jumpIfFalse : decode 2106 = .instr (.jumpIfFalse .immediate .relative) := by decide
/-- `2 0 1 07` -/
theorem test_decode_lessThan : decode 20107 = .instr (.lessThan .immediate .position .relative) := by decide
/-- `0 1 2 08` -/
theorem test_decode_equals : decode 1208 = .instr (.equals .relative .immediate .position) := by decide
/-- `0 0 2 09` -/
theorem test_decode_adjustBase : decode 209 = .instr (.adjustBase .relative) := by decide
/-- `0 0 0 99` -/
theorem test_decode_halt : decode 99 = .instr .halt := by decide

/-- 95_test_vectors.md, 2.7, one theorem per cause. -/
theorem test_decode_unknown : ∀ w ∈ [(0 : Int), 10, 98, 100, 100010], decode w = .illegal .unknownOpcode := by decide
theorem test_decode_negative : ∀ w ∈ [(-1 : Int), -99], decode w = .illegal .negativeWord := by decide
theorem test_decode_reserved :
    ∀ w ∈ [(199 : Int), 1099, 10099, 22299, 1003, 1104, 1109, 10004, 10005, 10105, 100001, 30399],
      decode w = .illegal .reservedDigit := by decide
theorem test_decode_mode :
    ∀ w ∈ [(301 : Int), 3001, 30001, 305, 3005, 303, 904, 13001], decode w = .illegal .illegalMode := by decide
theorem test_decode_target :
    ∀ w ∈ [(10001 : Int), 11101, 10002, 10007, 10008, 103], decode w = .illegal .immediateWriteTarget := by decide
theorem test_decode_legal_relative_targets :
    decode 20001 = .instr (.add .position .position .relative) ∧
    decode 21202 = .instr (.mul .relative .immediate .relative) := by decide

/-- R96: `ADD [100], #1, [100]` is the cells `1001,100,1,100`. -/
theorem test_encode_cells : encodeCells (.add .position .immediate .position) [100, 1, 100] = [1001, 100, 1, 100] := by decide

/-- Every row of the opcode table, by its `match_value`, is read as its own instruction. -/
theorem test_table_rows :
    [1, 2, 3, 4, 5, 6, 7, 8, 9, 99].map (decodeTableWord 8) =
      [some (.add .position .position .position), some (.mul .position .position .position), some (.input .position),
        some (.output .position), some (.jumpIfTrue .position .position), some (.jumpIfFalse .position .position),
        some (.lessThan .position .position .position), some (.equals .position .position .position),
        some (.adjustBase .position), some .halt] := by decide

/-- A placed word is the one the next step runs: `204,0` at address 0 outputs cell 0, which holds 204. -/
theorem test_withFetchWord : (after (State.reset.withFetchWord 8 204)).outq = [204] := by decide

/-! ## One step of each instruction -/

/-- A1: all three operands alias the instruction word. -/
theorem test_add_alias : (after (prog [1, 0, 0, 0, 99])).mem.load 0 = 2 ∧ (after (prog [1, 0, 0, 0, 99])).trace = [(0, 1)] := by
  decide
/-- A10: no wrap at `2^63 + 2^63`. -/
theorem test_add_wide :
    (after (prog [1101, 9223372036854775808, 9223372036854775808, 5, 99, 0])).mem.load 5 = 18446744073709551616 := by decide
/-- A2. -/
theorem test_mul : (after (prog [2, 3, 0, 3, 99])).mem.load 3 = 6 := by decide
/-- A5: the sign of a product. -/
theorem test_mul_sign : (after (prog [1102, -3, 4, 5, 99, 0])).mem.load 5 = -12 := by decide
/-- I3: one INPUT pops one value and stores it; the store grows to 4 cells. -/
theorem test_input :
    let t := after { prog [3, 3, 99] with inq := [1, 2, 3] }
    t.mem.load 3 = 1 ∧ t.inq = [2, 3] ∧ t.mlen = 4 ∧ t.pc = 2 := by decide
/-- I5: the block comes before the address check, and the fault does not pop. -/
theorem test_input_negative :
    after (prog [3, -1, 99]) = { prog [3, -1, 99] with fsm := .blocked } ∧
    (after { prog [3, -1, 99] with inq := [4] }).fault = addrFault 3 3 (-1) ∧
    (after { prog [3, -1, 99] with inq := [4] }).inq = [4] := by decide
/-- V3, with the base already 5: the value of `mem(5 - 2)`. -/
theorem test_output_relative :
    let t := after { prog [109, 5, 204, -2, 99] with pc := 2, rb := 5 }
    t.outq = [-2] ∧ t.latch = some (-2) ∧ t.pc = 4 := by decide
/-- V5. -/
theorem test_output_negative :
    let t := after (prog [4, -1, 99])
    t.fsm = .faulted ∧ t.fault = addrFault 4 4 (-1) ∧ t.mlen = 3 ∧ t.outq = [] ∧ t.trace.length = 1 := by decide
/-- J5, J9: position operands; a negative condition is true. -/
theorem test_jumpIfTrue :
    (after (prog [5, 7, 8, 99, 104, 1, 99, 3, 4])).pc = 4 ∧ (after (prog [1105, -1, 4, 99, 104, 7, 99])).pc = 4 ∧
    (after (prog [1105, 0, 4, 99, 104, 7, 99])).pc = 3 := by decide
/-- J7: an untaken jump still resolves operand 2. -/
theorem test_jump_untaken_target : (after (prog [105, 0, -1, 99])).fault = addrFault 105 5 (-1) := by decide
/-- J4, J11. -/
theorem test_jumpIfFalse :
    (after (prog [1106, 5, 4, 99, 104, 7, 99])).pc = 3 ∧ (after (prog [6, 8, 9, 99, 104, 1, 99, 0, 0, 4])).pc = 4 := by decide
/-- 2.5: `-5 < -3`, and not `3 < -3`. -/
theorem test_lessThan :
    (after (prog [1107, -5, -3, 5, 99, -1])).mem.load 5 = 1 ∧ (after (prog [1107, 3, -3, 5, 99, -1])).mem.load 5 = 0 := by decide
/-- C2: the result overwrites the instruction word; 2.5: different integers beyond 64 bits. -/
theorem test_equals :
    (after (prog [8, 5, 6, 0, 99, 4, 4])).mem.load 0 = 1 ∧
    (after (prog [1108, 9223372036854775807, 9223372036854775808, 5, 99, -1])).mem.load 5 = 0 := by decide
/-- B3: the delta is read through the old base. -/
theorem test_adjustBase_old_base : (after { prog [109, 3, 209, 1, 99] with pc := 2, rb := 3 }).rb = 102 := by decide
/-- B8. -/
theorem test_adjustBase_negative : (after (prog [9, -1, 99])).fault = addrFault 9 9 (-1) := by decide
/-- B5. -/
theorem test_halt :
    let t := after (prog [99])
    t.fsm = .halted ∧ t.pc = 0 ∧ t.mlen = 1 ∧ t.trace = [(0, 99)] := by decide

/-- B6: the empty image faults on the zero cell. -/
theorem test_empty_image :
    let t := after (prog [])
    t.fsm = .faulted ∧ t.mlen = 1 ∧ t.fault = decodeFault .unknownOpcode 0 (some 0) ∧ t.trace = [(0, 0)] := by decide
/-- R255: no opcode is reported for a negative word. -/
theorem test_negative_word_record : (after (prog [-1])).fault = decodeFault .negativeWord (-1) none := by decide
/-- J6: a fault at fetch has no word and makes no trace entry. -/
theorem test_fetch_fault :
    let t := after { prog [1105, 1, -1] with pc := -1 }
    t.fault = some { cause := .negativeAddress, pc := -1, word := none, opcode := none, addr := some (-1) } ∧ t.trace = [] := by
  decide
/-- R153: with `W = 64` a result of `2^63` raises `ResourceLimit`. -/
theorem test_width_64 :
    (after (running { image := [1101, 9223372036854775807, 1, 5, 99, 0], width := some 64 })).fault =
      some { cause := .resourceLimit, pc := 0, word := some 1101, opcode := some 1, addr := none } := by decide

/-! ## The host interface -/

/-- H9: a push alone starts nothing. H2: a `run([5])` of a halted core still pushes, and takes no step. -/
theorem test_host_push :
    ({ prog [99] with fsm := .halted }).runWith [5] 3 = .accepted (.returned .halted { prog [99] with fsm := .halted, inq := [5] }) ∧
    (State.initial { image := [99] }).push [8] = .accepted { State.initial { image := [99] } with inq := [8] } := by decide
/-- S3, a whole `run()`. -/
theorem test_run_large_immediate :
    (State.initial { image := [104, 1125899906842624, 99] }).run 5 =
      .accepted (.returned .halted { State.initial { image := [104, 1125899906842624, 99] } with
        pc := 2, outq := [1125899906842624], latch := some 1125899906842624, fsm := .halted, trace := [(0, 104), (2, 99)] }) := by
  decide

/-! ## Witnesses: the hypotheses of the statements can be met -/

/-- `1101,-7,3,5,99,0` in a core with cells of 12 bits and 6 cells of memory. -/
def small : State := running { image := [1101, -7, 3, 5, 99, 0], width := some 12, memCap := some 6 }

theorem witness_StepRunsTheDecodedInstruction :
    (prog [1, 0, 0, 0, 99]).fsm = .running ∧ (prog [1, 0, 0, 0, 99]).holds (.add .position .position .position) ∧
    ({ small with pc := 4 }).holds .halt := ⟨rfl, ⟨rfl, rfl⟩, ⟨rfl, rfl⟩⟩

theorem witness_FetchAtNegativeAddressFaults :
    ({ prog [] with pc := -1 }).fsm = .running ∧ ({ prog [] with pc := -1 }).pc < 0 := by decide

/-- One word for each of the five causes; the last in the last cell of a limited memory. -/
theorem witness_IllegalWordFaultsBeforeOperands :
    (prog [0]).inMemory 0 = true ∧ (prog [0]).fsm = .running ∧
    decode ((prog [0]).mem.load 0) = .illegal .unknownOpcode ∧ decode ((prog [301]).mem.load 0) = .illegal .illegalMode ∧
    decode ((prog [103]).mem.load 0) = .illegal .immediateWriteTarget ∧
    decode ((prog [199]).mem.load 0) = .illegal .reservedDigit ∧
    decode ((prog [-1]).mem.load 0) = .illegal .negativeWord ∧
    ({ small with pc := 5 }).inMemory 5 = true ∧ decode (small.mem.load 5) = .illegal .unknownOpcode := by decide

/-- ADD and MUL where the target is the last cell of a limited memory, and where the sum is the largest value of the width. -/
theorem witness_ArithmeticStoresExactResult :
    small.resolvesRRW .immediate .immediate .position ∧ small.fits (small.pc + 4) = true ∧
    small.fits (small.value .immediate (small.operandWord 1) + small.value .immediate (small.operandWord 2)) = true ∧
    small.fits (small.value .immediate (small.operandWord 1) * small.value .immediate (small.operandWord 2)) = true ∧
    (running { image := [1101, 2046, 1, 5], width := some 12 }).fits (2046 + 1) = true ∧
    (prog [22201, 1, 2, 3]).resolvesRRW .relative .relative .relative :=
  ⟨⟨rfl, rfl, rfl, rfl, rfl⟩, rfl, rfl, rfl, rfl, ⟨rfl, rfl, rfl, rfl, rfl⟩⟩

/-- The three relations of R192, the middle one in a core of width 12. -/
theorem witness_ComparisonStoresZeroOrOne :
    (∃ s : State, s.resolvesRRW .immediate .immediate .position ∧ s.fits (s.pc + 4) = true ∧ s.fits 0 = true ∧
      s.fits 1 = true ∧ s.value .immediate (s.operandWord 1) < s.value .immediate (s.operandWord 2)) ∧
    (∃ s : State, s.resolvesRRW .immediate .immediate .position ∧ s.fits (s.pc + 4) = true ∧ s.fits 0 = true ∧
      s.fits 1 = true ∧ s.value .immediate (s.operandWord 1) = s.value .immediate (s.operandWord 2)) ∧
    (∃ s : State, s.resolvesRRW .immediate .immediate .position ∧ s.fits (s.pc + 4) = true ∧ s.fits 0 = true ∧
      s.fits 1 = true ∧ s.value .immediate (s.operandWord 2) < s.value .immediate (s.operandWord 1)) :=
  ⟨⟨prog [1107, -1, 0, 5], ⟨rfl, rfl, rfl, rfl, rfl⟩, rfl, rfl, rfl, by decide⟩,
    ⟨running { image := [1107, 3, 3, 5], width := some 12 }, ⟨rfl, rfl, rfl, rfl, rfl⟩, rfl, rfl, rfl, by decide⟩,
    ⟨prog [1107, 0, -1, 5], ⟨rfl, rfl, rfl, rfl, rfl⟩, rfl, rfl, rfl, by decide⟩⟩

/-- A condition of 0 and one of -1, the latter with a negative target. -/
theorem witness_JumpsGoByTheirCondition :
    ((prog [1105, 0, 4]).resolvesRR .immediate .immediate ∧ (prog [1105, 0, 4]).fits ((prog [1105, 0, 4]).pc + 3) = true ∧
      (prog [1105, 0, 4]).fits 4 = true ∧
      (prog [1105, 0, 4]).value .immediate ((prog [1105, 0, 4]).operandWord 1) = 0) ∧
    ((prog [1105, -1, -5]).resolvesRR .immediate .immediate ∧
      (prog [1105, -1, -5]).value .immediate ((prog [1105, -1, -5]).operandWord 1) ≠ 0) :=
  ⟨⟨⟨rfl, rfl, rfl⟩, rfl, rfl, rfl⟩, ⟨rfl, rfl, rfl⟩, by decide⟩

/-- Both clauses: a target at address 0, and the target -1. -/
theorem witness_InputConsumesTheOldestValue :
    (∃ s : State, s.params.policy = .blocking ∧ s.inq = 8 :: [9] ∧ s.resolvesW .position ∧ s.fits 8 = true ∧
      s.fits (s.pc + 2) = true) ∧
    (∃ s : State, s.params.policy = .blocking ∧ s.inq = 8 :: [] ∧ s.fetchable 1 = true ∧
      s.negativeOperand .position (s.operandWord 1) (-1)) :=
  ⟨⟨{ prog [3, 0] with inq := [8, 9] }, rfl, rfl, ⟨rfl, rfl, rfl⟩, rfl, rfl⟩,
    ⟨{ prog [3, -1] with inq := [8] }, rfl, rfl, rfl, rfl, by decide, by decide⟩⟩

theorem witness_StarvedInputOnlyBlocks : (prog [3, -1]).params.policy = .blocking ∧ (prog [3, -1]).inq = [] := by decide

theorem witness_LatchInputHalts :
    (running { image := [3, 0], policy := .latch }).params.policy = .latch ∧
    (running { image := [3, 0], policy := .latch }).inMemory 0 = true := by decide

/-- OUTPUT with the last place of a limited queue free. -/
theorem witness_OutputAppendsAndLatches :
    (running { image := [4, 0], outDepth := some 1 }).resolvesR .position ∧
    (running { image := [4, 0], outDepth := some 1 }).outRoom = true ∧
    (running { image := [4, 0], outDepth := some 1 }).fits 2 = true := ⟨⟨rfl, rfl⟩, rfl, rfl⟩

/-- ADJUST-BASE to the least value of 12 bits. -/
theorem witness_AdjustBaseAddsItsValue :
    (running { image := [109, -2048], width := some 12 }).resolvesR .immediate ∧
    (running { image := [109, -2048], width := some 12 }).fits (0 + -2048) = true ∧
    (running { image := [109, -2048], width := some 12 }).fits (0 + 2) = true := ⟨⟨rfl, rfl⟩, rfl, rfl⟩

/-- Both clauses of HALT. -/
theorem witness_HaltStopsAtItsWord :
    (prog [99]).inMemory (prog [99]).pc = true ∧ ((0 : Int) ≤ 99 ∧ (99 : Int) % 100 = 99) ∧
    ((0 : Int) ≤ 199 ∧ (199 : Int) % 100 = 99) := by decide

/-- Every clause at the address -1. -/
theorem witness_FirstNegativeOperandFaults :
    (∃ s : State, s.fetchable 3 = true ∧ s.negativeOperand .position (s.operandWord 1) (-1)) ∧
    (∃ s : State, s.fetchable 3 = true ∧ s.addressable .immediate (s.operandWord 1) = true ∧
      s.negativeOperand .relative (s.operandWord 2) (-1)) ∧
    (∃ s : State, s.fetchable 3 = true ∧ s.addressable .immediate (s.operandWord 1) = true ∧
      s.addressable .position (s.operandWord 2) = true ∧ s.negativeOperand .position (s.operandWord 3) (-1)) ∧
    (∃ s : State, s.fetchable 2 = true ∧ s.negativeOperand .position (s.operandWord 1) (-1)) ∧
    (∃ s : State, s.fetchable 2 = true ∧ s.addressable .immediate (s.operandWord 1) = true ∧
      s.negativeOperand .position (s.operandWord 2) (-1)) ∧
    (∃ s : State, s.fetchable 1 = true ∧ s.negativeOperand .relative (s.operandWord 1) (-1)) :=
  ⟨⟨prog [1, -1, -2, -3], rfl, rfl, by decide, by decide⟩,
    ⟨{ prog [2101, 1, 4, 0] with rb := -5 }, rfl, rfl, rfl, by decide, by decide⟩,
    ⟨prog [101, 1, 0, -1], rfl, rfl, rfl, rfl, by decide, by decide⟩,
    ⟨prog [5, -1, 0], rfl, rfl, by decide, by decide⟩,
    ⟨prog [105, 0, -1], rfl, rfl, rfl, by decide, by decide⟩,
    ⟨prog [204, -1], rfl, rfl, by decide, by decide⟩⟩

theorem witness_FaultsArePrecise :
    ∃ t, (prog [1101, 1, 1, -3]).fsm = .running ∧ step (prog [1101, 1, 1, -3]) = .next t ∧ t.fsm = .faulted :=
  ⟨_, rfl, rfl, rfl⟩

/-- Each limit, by one. -/
theorem witness_ExceededLimitFaults :
    (∃ s : State, s.resolvesRRW .immediate .immediate .position ∧
      s.fits (s.value .immediate (s.operandWord 1) + s.value .immediate (s.operandWord 2)) = false) ∧
    (∃ s : State, s.resolvesRRW .immediate .immediate .position ∧ s.fits (s.pc + 4) = false) ∧
    (∃ s : State, s.resolvesRRW .immediate .immediate .position ∧
      s.fits (s.value .immediate (s.operandWord 1) * s.value .immediate (s.operandWord 2)) = false) ∧
    (∃ s : State, s.resolvesR .immediate ∧ s.fits (s.rb + s.value .immediate (s.operandWord 1)) = false) ∧
    (∃ s : State, s.resolvesR .immediate ∧ s.outRoom = false) ∧
    (∃ s : State, s.resolvesR .immediate ∧ s.fits (s.pc + 2) = false) ∧
    (∃ s : State, s.fetchable 1 = true ∧ s.fits (s.rb + s.operandWord 1) = false) ∧
    (∃ s : State, s.fetchable 1 = true ∧ 0 ≤ s.operandWord 1 ∧ s.params.below (s.operandWord 1) = false) :=
  ⟨⟨running { image := [1101, 2047, 1, 5], width := some 12 }, ⟨rfl, rfl, rfl, rfl, rfl⟩, rfl⟩,
    ⟨{ running { image := [1101, 1, 1, 0], width := some 12 } with pc := 2044 }, ⟨rfl, rfl, rfl, rfl, rfl⟩, rfl⟩,
    ⟨running { image := [1102, -2048, -1, 5], width := some 12 }, ⟨rfl, rfl, rfl, rfl, rfl⟩, rfl⟩,
    ⟨{ running { image := [109, 1], width := some 12 } with rb := 2047 }, ⟨rfl, rfl⟩, rfl⟩,
    ⟨{ running { image := [104, 1], outDepth := some 1 } with outq := [0] }, ⟨rfl, rfl⟩, rfl⟩,
    ⟨{ running { image := [], width := some 12 } with pc := 2046 }, ⟨rfl, rfl⟩, rfl⟩,
    ⟨{ running { image := [204, 1], width := some 12 } with rb := 2047 }, rfl, rfl⟩,
    ⟨running { image := [4, 2], memCap := some 2 }, rfl, by decide, rfl⟩⟩

/-- Each limit by one, again. -/
theorem witness_ExceededLimitFaultsElsewhere :
    (∃ s : State, s.resolvesRRW .immediate .immediate .position ∧ s.fits (s.pc + 4) = false) ∧
    (∃ s : State, s.resolvesRR .immediate .immediate ∧ s.value .immediate (s.operandWord 1) = 0 ∧
      s.fits (s.pc + 3) = false) ∧
    (∃ s : State, s.resolvesRR .immediate .immediate ∧ s.value .immediate (s.operandWord 1) ≠ 0 ∧
      s.fits (s.value .immediate (s.operandWord 2)) = false) ∧
    (∃ s : State, s.params.policy = .blocking ∧ s.inq = 2048 :: [] ∧ s.resolvesW .position ∧ s.fits 2048 = false) ∧
    (∃ s : State, s.params.policy = .blocking ∧ s.inq = 1 :: [] ∧ s.resolvesW .position ∧ s.fits (s.pc + 2) = false) ∧
    ∃ s : State, s.fsm = .running ∧ 0 ≤ s.pc ∧ s.params.below s.pc = false :=
  ⟨⟨{ running { image := [1107, 1, 1, 0], width := some 12 } with pc := 2044 }, ⟨rfl, rfl, rfl, rfl, rfl⟩, rfl⟩,
    ⟨{ running { image := [], width := some 12 } with pc := 2045 }, ⟨rfl, rfl, rfl⟩, rfl, rfl⟩,
    ⟨running { image := [1105, 1, 2048], width := some 12 }, ⟨rfl, rfl, rfl⟩, by decide, rfl⟩,
    ⟨{ running { image := [3, 0], width := some 12 } with inq := [2048] }, rfl, rfl, ⟨rfl, rfl, rfl⟩, rfl⟩,
    ⟨{ running { image := [], width := some 12 } with pc := 2046, inq := [1] }, rfl, rfl, ⟨rfl, rfl, rfl⟩, rfl⟩,
    { running { image := [99, 0], memCap := some 2 } with pc := 2 }, rfl, by decide, rfl⟩

/-- At an operand word 8 with `MEM_CAP` 8. -/
def atCap : State := { running { image := [1, 8, 8, 8], memCap := some 8 } with inq := [5] }

/-- At a relative operand whose sum is 2048 with `W` 12. -/
def aboveRange : State := { running { image := [1, 1, 1, 1], width := some 12 } with rb := 2047, inq := [5] }

theorem atCap_limited : atCap.limitedOperand .position 8 (some 8) :=
  .inr ⟨8, rfl, fun h => (by cases h), by decide, rfl, rfl⟩

theorem aboveRange_limited : aboveRange.limitedOperand .relative 1 none := .inl ⟨rfl, rfl, rfl⟩

/-- Both kinds of a limit, by one, at each operand of each format, with the operands before it immediate. -/
theorem witness_LimitedOperandFaults :
    (∀ s ∈ [atCap, aboveRange], s.fetchable 3 = true ∧ s.fetchable 2 = true ∧ s.fetchable 1 = true ∧
      s.addressable .immediate (s.operandWord 1) = true ∧ s.addressable .immediate (s.operandWord 2) = true ∧
      s.params.policy = .blocking ∧ s.inq ≠ []) ∧
    (∀ k ∈ [1, 2, 3], atCap.limitedOperand .position (atCap.operandWord k) (some 8)) ∧
    ∀ k ∈ [1, 2, 3], aboveRange.limitedOperand .relative (aboveRange.operandWord k) none := by
  refine ⟨by decide, ?_, ?_⟩ <;> simp only [List.mem_cons, List.not_mem_nil, or_false]
  · rintro k (rfl | rfl | rfl) <;> exact atCap_limited
  · rintro k (rfl | rfl | rfl) <;> exact aboveRange_limited

/-- Memory that ends after the instruction word, after the first operand word, and after the second; and an INPUT with data. -/
theorem witness_OperandWordBeyondMemoryFaults :
    (∀ k ∈ [0, 1, 2], (running { image := [1101], memCap := some (k + 1) }).fetchable k = true ∧
      (running { image := [1101], memCap := some (k + 1) }).params.below (0 + (k + 1 : Nat)) = false ∧
      k < (Instr.add .immediate .immediate .position).opcode.format.operands) ∧
    (∀ a, Instr.add .immediate .immediate .position ≠ .input a) ∧
    ({ running { image := [3], memCap := some 1 } with inq := [5] }).fetchable 0 = true ∧
    ({ running { image := [3], memCap := some 1 } with inq := [5] }).params.below (0 + 1) = false ∧
    ({ running { image := [3], memCap := some 1 } with inq := [5] }).params.policy = .blocking :=
  ⟨by decide, fun _ h => (by cases h), rfl, rfl, rfl⟩

theorem witness_UnboundedCoreNeverHitsALimit :
    ∃ t f, (prog [4, -1]).unbounded ∧ (prog [4, -1]).fsm = .running ∧ step (prog [4, -1]) = .next t ∧ t.fault = some f ∧
      (prog [4, -1]).fault ≠ some f := ⟨_, _, ⟨rfl, rfl, rfl, rfl⟩, rfl, rfl, rfl, by decide⟩

/-- A limited core at a step that exceeds a limit, and at one that does not. -/
theorem witness_FiniteLimitsOnlyAddAFault :
    (∃ t, small.fsm = .running ∧ step small = .next t ∧ t.fsm = .running) ∧
    (∃ t, step (running { image := [4, 2], memCap := some 2 }) = .next t ∧ t.fsm = .faulted) :=
  ⟨⟨_, rfl, rfl, rfl⟩, _, rfl, rfl⟩

theorem witness_FootprintOfStoringInstructions :
    ∃ t, small.mem.wf = true ∧ exec (.add .immediate .immediate .position) small = .next t ∧ t.fsm = small.fsm :=
  ⟨_, rfl, rfl, rfl⟩

/-- An INPUT that consumes, and one that blocks. -/
theorem witness_FootprintOfInput :
    (∃ t, ({ prog [3, 0] with inq := [8] }).mem.wf = true ∧
      exec (.input .position) { prog [3, 0] with inq := [8] } = .next t ∧ t.inq = []) ∧
    ∃ t, (prog [3, 0]).mem.wf = true ∧ exec (.input .position) (prog [3, 0]) = .next t ∧ t.fsm = .blocked :=
  ⟨⟨_, rfl, rfl, rfl⟩, _, rfl, rfl, rfl⟩

/-- Each instruction that stores nothing. -/
theorem witness_FootprintOfNonStoringInstructions :
    (∃ t, exec (.jumpIfTrue .immediate .immediate) (prog [1105, 1, 4]) = .next t ∧ t.fsm = .running) ∧
    (∃ t, exec (.jumpIfFalse .immediate .immediate) (prog [1106, 1, 4]) = .next t ∧ t.fsm = .running) ∧
    (∃ t, exec (.output .immediate) (prog [104, 1]) = .next t ∧ t.fsm = .running) ∧
    (∃ t, exec (.adjustBase .immediate) (prog [109, 1]) = .next t ∧ t.fsm = .running) ∧
    ∃ t, exec .halt (prog [99]) = .next t ∧ t.fsm = .halted :=
  ⟨⟨_, rfl, rfl⟩, ⟨_, rfl, rfl⟩, ⟨_, rfl, rfl⟩, ⟨_, rfl, rfl⟩, _, rfl, rfl⟩

/-- A core between runs, with any image, meets the invariant. -/
theorem ready_inv (image : List Int) : (State.initial { image := image }).Inv :=
  State.initial_inv (p := { image := image }) (q := []) (by simp) (by simp [Params.fits]) rfl (by simp) rfl

/-- And so does the same core inside a run. -/
theorem prog_inv (image : List Int) : (prog image).Inv :=
  { ready_inv image with
    fault_iff := ⟨fun h => absurd h (by simp [prog, running, State.initial, State.reset]), fun h => absurd h (by
      simp [prog, running])⟩
    halted_at := fun h => absurd h (by simp [prog, running])
    blocked_at := fun h => absurd h (by simp [prog, running]) }

/-- A core blocked at the INPUT `3,0`. -/
def blockedCore : State := { prog [3, 0] with fsm := .blocked }

theorem blockedCore_inv : blockedCore.Inv :=
  { ready_inv [3, 0] with
    fault_iff := ⟨fun h => absurd h (by decide), fun h => absurd h (by decide)⟩
    halted_at := fun h => absurd h (by decide)
    blocked_at := fun _ => ⟨rfl, .position, rfl, rfl⟩ }

/-- A core that has faulted on a zero cell. -/
def faultedCore : State := (prog [0]).raise { cause := .decode .unknownOpcode }

theorem faultedCore_inv : faultedCore.Inv := (prog_inv [0]).raise _

theorem witness_StepKeepsTheInvariant : ∃ t, (prog [1, 0, 0, 0, 99]).Inv ∧ step (prog [1, 0, 0, 0, 99]) = .next t :=
  ⟨_, prog_inv _, rfl⟩

/-- A construction that is accepted with every limit used up, and each operation accepted. -/
theorem witness_HostOperationsKeepTheInvariant :
    (∃ s, State.construct { image := [127, -128], width := some 8, memCap := some 2, inDepth := some 1 } [5] = .accepted s) ∧
    (State.initial { image := [99] }).Inv ∧
    ∀ o ∈ [HostOp.reset, .push [1, 2], .pop, .drain, .go, .observe], ∃ t, hostApply o (State.initial { image := [99] }) = .accepted t := by
  refine ⟨⟨_, rfl⟩, ready_inv _, ?_⟩
  simp only [List.mem_cons, List.not_mem_nil, or_false]
  rintro o (rfl | rfl | rfl | rfl | rfl | rfl) <;> exact ⟨_, rfl⟩

theorem witness_OnlyAdjustBaseChangesTheBase :
    ∃ t, step (prog [109, 5]) = .next t ∧ t.rb ≠ (prog [109, 5]).rb := ⟨_, rfl, by decide⟩

/-- B1 with a push, a starved INPUT and a resumption in between: the deltas 5 and -7, then cell `-2 + 3`. -/
theorem witness_RelativeOperandsUseTheSumOfDeltas :
    (∃ t, blockedCore.hostReset = .accepted t) ∧
    ∃ (es : List Claims.Event) (t : State), .host .reset ∉ es ∧ (prog [109, 5, 3, 20, 109, -7, 99]).rb = 0 ∧
      Claims.drive es (prog [109, 5, 3, 20, 109, -7, 99]) = some t ∧ t.addressable .relative 3 = true ∧
      Claims.deltas es (prog [109, 5, 3, 20, 109, -7, 99]) = -2 :=
  ⟨⟨_, rfl⟩, [.step, .step, .host (.push [1]), .host .go, .step, .step], _, by decide, rfl, rfl, rfl, rfl⟩

/-- A step, an operation that is no reset, and a reset of a core whose store has grown. -/
theorem witness_OnlyResetShrinksTheStore :
    (∃ t, step (prog [104, 1]) = .next t) ∧ (∃ t, hostApply (.push [1]) blockedCore = .accepted t) ∧
    (∃ t, ({ blockedCore with mlen := 100 }).hostReset = .accepted t ∧ t.mlen = 2) := ⟨⟨_, rfl⟩, ⟨_, rfl⟩, _, rfl, rfl⟩

theorem witness_ParametersNeverChange :
    (∃ t, step (prog [104, 1]) = .next t) ∧ ∃ t, hostApply .reset faultedCore = .accepted t := ⟨⟨_, rfl⟩, _, rfl⟩

theorem witness_TraceGainsOneEntryPerInstruction :
    ∃ t, (prog [104, 1]).fsm = .running ∧ step (prog [104, 1]) = .next t ∧ t.trace = [(0, 104)] := ⟨_, rfl, rfl, rfl⟩

/-- A step that pops, and one that appends. -/
theorem witness_StepMovesTheQueuesInOrder :
    (∃ t, step { prog [3, 0] with inq := [8] } = .next t ∧ t.inq = []) ∧
    ∃ t, step { prog [104, 7] with outq := [1] } = .next t ∧ t.outq = [1, 7] := ⟨⟨_, rfl, rfl⟩, _, rfl, rfl⟩

/-- The two ways to halt, and the zero word. -/
theorem witness_HaltedOnlyByHaltOrLatchInput :
    (∃ t, step (prog [99]) = .next t ∧ (prog [99]).holds .halt ∧ t.fsm = .halted) ∧
    (∃ t, step (running { image := [3], policy := .latch }) = .next t ∧ t.fsm = .halted) ∧
    (prog [0]).fsm = .running ∧ (prog [0]).mem.load (prog [0]).pc.toNat = 0 :=
  ⟨⟨_, rfl, ⟨rfl, rfl⟩, rfl⟩, ⟨_, rfl, rfl⟩, rfl, rfl⟩

theorem witness_BlockedOnlyByStarvedInput :
    ∃ t, (prog [3, 0]).fsm = .running ∧ step (prog [3, 0]) = .next t ∧ t.fsm = .blocked := ⟨_, rfl, rfl, rfl⟩

theorem witness_PolicyOnlyMattersForInput :
    (∀ a, Instr.output .immediate ≠ .input a) ∧ ∃ t, exec (.output .immediate) (prog [104, 7]) = .next t :=
  ⟨fun _ h => (by cases h), _, rfl⟩

/-- A step, and operations on a running, a ready, a blocked, a halted and a faulted core. -/
theorem witness_FsmFollowsItsTransitionTable :
    (∃ t, step (prog [99]) = .next t) ∧ (prog [99]).fsm = .running ∧
    (∃ t, (State.initial {}).go = .accepted t) ∧ (∃ t, blockedCore.go = .accepted t) ∧ (∃ t, faultedCore.go = .accepted t) ∧
    (∃ t, ({ prog [99] with fsm := .halted }).go = .accepted t) ∧
    (∃ t, faultedCore.hostReset = .accepted t) ∧ ∃ t, hostApply .drain blockedCore = .accepted t :=
  ⟨⟨_, rfl⟩, rfl, ⟨_, rfl⟩, ⟨_, rfl⟩, ⟨_, rfl⟩, ⟨_, rfl⟩, ⟨_, rfl⟩, _, rfl⟩

theorem witness_HiddenStateDoesNotSteerTheStep :
    ∃ t, (prog [4, 0]).fsm = .running ∧ (prog [4, 0]).params.outDepth = none ∧ step (prog [4, 0]) = .next t :=
  ⟨_, rfl, rfl, rfl⟩

/-- A write below, between and above the listed cells, and one of 0. -/
theorem witness_ReadAfterWriteInMemory :
    Memory.wf [(2, 5), (4, -1)] = true ∧ Memory.store [(2, 5), (4, -1)] 3 7 = [(2, 5), (3, 7), (4, -1)] ∧
    Memory.store [(2, 5), (4, -1)] 2 0 = [(4, -1)] := by decide

theorem witness_MemoryIsItsContents :
    Memory.wf (Memory.ofImage [0, 3, 0, 4]) = true ∧ Memory.wf [(1, 3), (3, 4)] = true ∧
    ∀ a, (Memory.ofImage [0, 3, 0, 4]).load a = Memory.load [(1, 3), (3, 4)] a := ⟨rfl, rfl, fun _ => rfl⟩

/-- A8: the ADD at 0 stores 99 into cell 4. -/
theorem witness_StoredWordIsTheNextInstruction :
    (prog [1101, 50, 49, 4, 0]).mem.wf = true ∧ (prog [1101, 50, 49, 4, 0]).fsm = .running ∧
    (prog [1101, 50, 49, 4, 0]).holds (.add .immediate .immediate .position) ∧
    (prog [1101, 50, 49, 4, 0]).resolvesRRW .immediate .immediate .position ∧
    ((prog [1101, 50, 49, 4, 0]).target .position ((prog [1101, 50, 49, 4, 0]).operandWord 3) : Int) = 0 + 4 ∧
    (prog [1101, 50, 49, 4, 0]).fits (0 + 4) = true ∧ (prog [1101, 50, 49, 4, 0]).fits (encode .halt) = true ∧
    Instr.halt.wellFormed = true ∧
    (prog [1101, 50, 49, 4, 0]).value .immediate 50 + (prog [1101, 50, 49, 4, 0]).value .immediate 49 = encode .halt :=
  ⟨rfl, rfl, ⟨rfl, rfl⟩, ⟨rfl, rfl, rfl, rfl, rfl⟩, rfl, rfl, rfl, rfl, rfl⟩

theorem witness_ResetRestoresTheImage : faultedCore.Inv ∧ faultedCore.fsm ≠ .running := ⟨faultedCore_inv, by decide⟩

theorem witness_ResetIsIdempotent :
    blockedCore.fsm ≠ .running ∧ (∃ t, blockedCore.hostReset = .accepted t) ∧
    ∃ s, State.construct { image := [3, 0] } [8] = .accepted s := ⟨by decide, ⟨_, rfl⟩, _, rfl⟩

/-- Every clause, on blocked cores with an output queue empty and not. -/
theorem witness_HostTouchesOnlyTheQueues :
    (∃ t, blockedCore.push [1, 2] = .accepted t) ∧ blockedCore.fsm ≠ .running ∧ blockedCore.unbounded ∧
    blockedCore.outq = [] ∧ ({ blockedCore with outq := [1, 2] }).outq = 1 :: [2] ∧
    ∃ t, hostApply .observe blockedCore = .accepted t := ⟨⟨_, rfl⟩, by decide, ⟨rfl, rfl, rfl, rfl⟩, rfl, rfl, _, rfl⟩

theorem witness_EndedCoreIgnoresRun :
    (∃ t, ({ prog [99] with fsm := .halted }).push [5] = .accepted t) ∧ (∃ t, faultedCore.push [] = .accepted t) ∧
    faultedCore.fsm = .faulted ∧ ({ prog [99] with fsm := .halted }).fsm = .halted := ⟨⟨_, rfl⟩, ⟨_, rfl⟩, rfl, rfl⟩

theorem witness_BlockedRunIsIdempotent : blockedCore.Inv ∧ blockedCore.fsm = .blocked ∧ blockedCore.inq = [] :=
  ⟨blockedCore_inv, rfl, rfl⟩

theorem witness_FaultRecordIsWrittenOnce :
    ∃ f t u, faultedCore.Inv ∧ faultedCore.fault = some f ∧ step faultedCore = .next t ∧
      hostApply (.push [1]) faultedCore = .accepted u := ⟨_, _, _, faultedCore_inv, rfl, rfl, rfl⟩

/-- Two cores in a ring, both blocked; with `v` in the first one's input FIFO. -/
def ring (v : List Int) : Net where
  nodes := [{ core := blockedCore, inFifo := 0, outFifo := 1 }, { core := blockedCore, inFifo := 1, outFifo := 0 }]
  fifos := [v, []]

theorem witness_CoresShareOnlyTheirFifos :
    ∃ st n', (ring []).runCore 0 3 = .done (st, n') ∧ (ring []).nodes[0]? ≠ none := ⟨_, _, rfl, by decide⟩

/-- The ring meets the hypotheses, deadlocked (empty FIFOs) and not (a value waiting). -/
theorem witness_DeadlockIsExactlyNoProgress :
    (ring []).wired = true ∧ (∀ d ∈ (ring []).nodes, ((ring []).view d).Inv) ∧ (ring []).deadlocked = true ∧
    (ring [7]).wired = true ∧ (∀ d ∈ (ring [7]).nodes, ((ring [7]).view d).Inv) ∧ (ring [7]).deadlocked = false := by
  refine ⟨rfl, ?_, rfl, rfl, ?_, rfl⟩
  · simp only [ring, List.mem_cons, List.not_mem_nil, or_false]
    rintro d (rfl | rfl) <;> exact blockedCore_inv
  · simp only [ring, List.mem_cons, List.not_mem_nil, or_false]
    rintro d (rfl | rfl)
    · exact { blockedCore_inv with inq_fits := fun _ _ => rfl, inq_depth := rfl }
    · exact { blockedCore_inv with outq_fits := fun _ _ => rfl, outq_depth := rfl }

/-- Two cores with one output FIFO, and two with one input FIFO, at the first and the last of three places. -/
theorem witness_SecondProducerOrConsumerIsRefused :
    Claims.twoParties [⟨blockedCore, 0, 2⟩, ⟨blockedCore, 3, 4⟩, ⟨blockedCore, 1, 2⟩] ∧
    Claims.twoParties [⟨blockedCore, 0, 2⟩, ⟨blockedCore, 3, 4⟩, ⟨blockedCore, 0, 1⟩] :=
  ⟨⟨0, 2, _, _, by decide, rfl, rfl, .inr rfl⟩, ⟨0, 2, _, _, by decide, rfl, rfl, .inl rfl⟩⟩

/-- A core alone, its FIFOs reached by the host: input 0, output 1. -/
def alone : Net where
  nodes := [{ core := blockedCore, inFifo := 0, outFifo := 1 }]
  fifos := [[], [4, 5]]

/-- A joining that is accepted, and every operation done. -/
theorem witness_TopologyNeverChanges :
    (∃ n, Net.wire [⟨blockedCore, 0, 1⟩, ⟨blockedCore, 1, 0⟩] 2 = .done n) ∧
    (∃ st n', alone.runCore 0 2 = .done (st, n')) ∧ (∃ n', alone.resetCore 0 = .done n') ∧
    (∃ n', alone.pushInput 0 [1, 2] = .done n') ∧ (∃ v n', alone.popOutput 0 = .done (v, n')) ∧
    (∃ v n', alone.drainOutput 0 = .done (v, n')) ∧ ∃ o n', alone.observeCore 0 = .done (o, n') :=
  ⟨⟨_, rfl⟩, ⟨_, _, rfl⟩, ⟨_, rfl⟩, ⟨_, rfl⟩, ⟨_, _, rfl⟩, ⟨_, _, rfl⟩, _, _, rfl⟩

/-- Outer FIFOs of a core alone, and inner ones of the ring. -/
theorem witness_HostReachesOnlyOuterFifos :
    (alone.wired = true ∧ (∃ d, alone.nodes[0]? = some d ∧ (∀ e ∈ alone.nodes, e.outFifo ≠ d.inFifo) ∧
      (∀ e ∈ alone.nodes, e.inFifo ≠ d.outFifo) ∧ d.core.fsm ≠ .running ∧ d.core.unbounded)) ∧
    (ring []).wired = true ∧ ∃ d, (ring []).nodes[0]? = some d ∧ (∃ e ∈ (ring []).nodes, e.outFifo = d.inFifo) ∧
      ∃ e ∈ (ring []).nodes, e.inFifo = d.outFifo :=
  ⟨⟨rfl, _, rfl, by decide, by decide, by decide, rfl, rfl, rfl, rfl⟩, rfl, _, rfl, by decide⟩

/-- The ring with values in both its FIFOs. -/
theorem witness_ResetEmptiesSharedFifos :
    ({ ring [] with fifos := [[7], [8, 9]] }).wired = true ∧
    ∃ d, ({ ring [] with fifos := [[7], [8, 9]] }).nodes[0]? = some d ∧ d.core.fsm ≠ .running := ⟨rfl, _, rfl, by decide⟩

/-! ## The host and compositions -/

/-- R25, R37: the hidden length is among what the host sees; V4 leaves 101. -/
theorem test_observe_mlen :
    (({ after { prog [109, 100, 204, 0, 99] with pc := 2, rb := 100 } with fsm := .halted }).observe.andThen
      fun o => .accepted o.mlen) = .accepted 101 := by decide

/-- R223: a pop is given the oldest value, a drain all of them. -/
theorem test_pop_and_drain :
    alone.popOutput 0 = .done (some 4, { alone with fifos := [[], [5]] }) ∧
    alone.drainOutput 0 = .done ([4, 5], { alone with fifos := [[], []] }) := by decide

/-- The program of P4 with its parameter. -/
def pipe (p : Int) : State := State.initial { image := [104, 1, 104, 2, 104, p, 3, 20, 3, 21, 3, 22, 3, 23, 99] }

/-- P4, the wiring and the first row of the schedule: `A.run()` answers `Blocked`, `pc` 6, and `QAB` is `1, 2, 0`. -/
theorem test_pipe_first_run :
    (((Net.wire [⟨pipe 0, 1, 0⟩, ⟨pipe 1, 0, 1⟩] 2).andThen fun n => n.runCore 0 5).map fun r =>
      (r.1, r.2.fifos, r.2.nodes.map fun d => d.core.pc)) = .done (.blocked, [[1, 2, 0], []], [6, 0]) := by decide

/-- R238, U11: no joining of two producers. -/
theorem test_two_producers_refused : Net.wire [⟨pipe 0, 1, 0⟩, ⟨pipe 1, 2, 0⟩] 3 = .refused .badWiring := by decide

end Sys2Proof.Tests
end

-- The invariant and the parameters along steps and host operations (00_scope.md)
section
/-! SUPPORT. What every step and every host operation keeps: the invariant of a core and the parameters. -/

namespace Sys2Proof.Machine

theorem Grown.params_eq {s g : State} (h : Grown s g) : g.params = s.params := by
  obtain ⟨n, -, rfl, -⟩ := h
  rfl

theorem Grown.fault_eq {s g : State} (h : Grown s g) : g.fault = s.fault := by
  obtain ⟨n, -, rfl, -⟩ := h
  rfl

/-- Executing an instruction changes no parameter (R4). -/
theorem ExecCase.params_eq {s t : State} {i : Instr} (h : ExecCase s i t) : t.params = s.params := by
  cases h with
  | trap _ _ _ hg => exact hg.params_eq
  | store _ _ _ hg => exact hg.params_eq
  | consume _ _ _ _ _ _ hg => exact hg.params_eq
  | suspend => rfl
  | latchHalt => rfl
  | output _ _ hg => exact hg.params_eq
  | jump _ _ _ hg => exact hg.params_eq
  | adjust _ _ hg => exact hg.params_eq
  | halt => rfl

theorem StepCase.params_eq {s t : State} (h : StepCase s t) : t.params = s.params := by
  cases h with
  | fetchTrap => rfl
  | decodeTrap => rfl
  | execute _ _ _ _ hc => exact hc.params_eq

theorem HostCase.params_eq {s t : State} {o : HostOp} (h : HostCase s o t) : t.params = s.params := by
  cases h <;> rfl

/-- A step either leaves the core as it is or is one of the cases of `StepCase`. -/
theorem step_idle_or_case {s t : State} (h : step s = .next t) : t = s ∨ (s.fsm = .running ∧ StepCase s t) := by
  by_cases hr : s.fsm = .running
  · exact .inr ⟨hr, .of_step hr h⟩
  · rw [step_idle hr, Host.Outcome.next.injEq] at h
    exact .inl h.symm

/-! ## The ends of a step keep the invariant -/

/-- Blocking at an INPUT under `Blocking` keeps the invariant. -/
theorem State.Inv.suspend {s : State} {a : Mode} (h : s.Inv) (hr : s.fsm = .running) (hp : s.params.policy = .blocking)
    (hi : s.holds (.input a)) : s.suspend.Inv :=
  { h with
    fault_iff := by simp [h.fault_none (by simp [hr])]
    halted_at := by simp
    blocked_at := fun _ => ⟨hp, a, hi⟩ }

/-- Halting at HALT, or at an INPUT under `Latch`, keeps the invariant. -/
theorem State.Inv.halt {s : State} (h : s.Inv) (hr : s.fsm = .running)
    (hi : s.holds .halt ∨ (s.params.policy = .latch ∧ ∃ a, s.holds (.input a))) : s.halt.Inv :=
  { h with
    fault_iff := by simp [h.fault_none (by simp [hr])]
    halted_at := fun _ => hi
    blocked_at := by simp
    trace_off := h.trace_append_off }

/-- Retiring with a `pc` in the domain keeps the invariant. -/
theorem State.Inv.retire {s : State} {p : Int} (h : s.Inv) (hr : s.fsm = .running) (hp : s.fits p = true) :
    (s.retire p).Inv :=
  { h with
    pc_fits := hp
    fault_pc := by simp [h.fault_none (by simp [hr])]
    halted_at := by simp [hr]
    blocked_at := by simp [hr]
    trace_off := h.trace_append_off }

/-- The value of an operand of the current instruction is in the domain, as every cell is (R5). -/
theorem State.Inv.value_fits {s : State} (h : s.Inv) (m : Mode) (k : Nat) : s.fits (s.value m (s.operandWord k)) = true := by
  obtain ⟨x, hx⟩ := s.value_is_cell m (s.operandWord k) ⟨_, rfl⟩
  rw [hx]
  exact h.cell_fits x

/-- An output queue with room takes one more value within its depth (R5). -/
theorem State.withinCap_of_outRoom {s : State} (h : s.outRoom = true) (v : Int) :
    withinCap s.params.outDepth (s.outq ++ [v]).length = true := by
  unfold State.outRoom at h
  unfold withinCap
  cases hd : s.params.outDepth with
  | none => rfl
  | some d => simpa [hd] using h

/-- Executing the instruction at `pc` keeps the invariant. -/
theorem ExecCase.inv {s t : State} {i : Instr} (h : s.Inv) (hr : s.fsm = .running) (hi : s.holds i)
    (hc : ExecCase s i t) : t.Inv := by
  cases hc with
  | trap _ g t hg => exact (h.grown hg).raise t
  | store _ g _ hg hm hv hp =>
    have hgi := h.grown hg
    obtain ⟨n, -, rfl, -⟩ := hg
    exact hgi.stored (q := s.inq) hr hm hv hp (fun _ hx => hx) (Nat.le_refl _)
  | consume a g v rest _ hq hg hm hv hp =>
    have hgi := h.grown hg
    obtain ⟨n, -, rfl, -⟩ := hg
    exact hgi.stored hr hm hv hp (by simp +contextual [hq]) (by simp [hq])
  | suspend a hpol => exact h.suspend hr hpol hi
  | latchHalt a hpol => exact h.halt hr (.inr ⟨hpol, a, hi⟩)
  | output a g hg hroom hp =>
    have hgi := h.grown hg
    obtain ⟨n, -, rfl, -⟩ := hg
    exact { hgi.retire hr hp with
      outq_fits := fun v hv => (List.mem_append.1 hv).elim (h.outq_fits v) fun hv =>
        List.mem_singleton.1 hv ▸ h.value_fits a 1
      outq_depth := State.withinCap_of_outRoom hroom _ }
  | jump _ g _ hg hp =>
    have hgi := h.grown hg
    obtain ⟨n, -, rfl, -⟩ := hg
    exact hgi.retire hr hp
  | adjust a g hg hv hp =>
    have hgi := h.grown hg
    obtain ⟨n, -, rfl, -⟩ := hg
    exact { hgi.retire hr hp with rb_fits := hv }
  | halt => exact h.halt hr (.inl hi)

theorem StepCase.inv {s t : State} (h : s.Inv) (hr : s.fsm = .running) (hc : StepCase s t) : t.Inv := by
  cases hc with
  | fetchTrap t => exact h.raise t
  | decodeTrap c hm => exact (h.grown (Grown.grow hm)).raise _
  | execute i t hi _ hc => exact hc.inv (h.grown (Grown.grow hi.1)) hr hi

/-! ## The host operations keep the invariant -/

/-- Starting a core that has neither halted nor faulted keeps the invariant (R212). -/
theorem State.Inv.start {s : State} (h : s.Inv) (hf : s.fsm = .ready ∨ s.fsm = .blocked) :
    State.Inv { s with fsm := .running } :=
  { h with
    fault_iff := by
      have hn : s.fsm ≠ .faulted := by rcases hf with hf | hf <;> simp [hf]
      simp [h.fault_none hn]
    halted_at := by simp
    blocked_at := by simp }

/-- Fewer elements are within a capacity too. -/
theorem withinCap_mono {cap : Option Nat} {m n : Nat} (h : withinCap cap n = true) (hm : m ≤ n) : withinCap cap m = true := by
  cases cap with
  | none => rfl
  | some d =>
    simp only [withinCap, decide_eq_true_eq] at h ⊢
    omega

/-- Taking values out of the output queue keeps the invariant (R223). -/
theorem State.Inv.take {s : State} (h : s.Inv) {q : List Int} (hq : q.Sublist s.outq) : State.Inv { s with outq := q } :=
  { h with
    outq_fits := fun v hv => h.outq_fits v (hq.subset hv)
    outq_depth := withinCap_mono h.outq_depth hq.length_le }

theorem HostCase.inv {s t : State} {o : HostOp} (h : s.Inv) (hc : HostCase s o t) : t.Inv := by
  cases hc with
  | reset =>
    have hd : withinCap s.params.inDepth 0 = true := withinCap_mono h.inq_depth (Nat.zero_le _)
    exact State.initial_inv (q := []) h.width_pos h.image_fits h.image_cap (by simp) hd
  | push vs hf hd =>
    exact { h with
      inq_fits := fun v hv => (List.mem_append.1 hv).elim (h.inq_fits v) (hf v)
      inq_depth := by simpa using hd }
  | pop => exact h.take (List.tail_sublist _)
  | drain => exact h.take (List.nil_sublist _)
  | start hf => exact h.start hf
  | noRun => exact h
  | observe => exact h

/-! ## The obligations -/

/-- Settles O27: each end of a step keeps the invariant, and an idle core stays as it is. -/
theorem stepKeepsTheInvariant : Obligations.StepKeepsTheInvariant := by
  intro s t h hs
  rcases step_idle_or_case hs with rfl | ⟨hr, hc⟩
  · exact h
  · exact hc.inv h hr

/-- Settles O29, by the cases of an accepted host operation. -/
theorem hostOperationsKeepTheInvariant : Obligations.HostOperationsKeepTheInvariant := by
  refine ⟨fun p seed s hs => ?_, fun o s t h ho => (hostApply_accepted ho).2.inv h⟩
  obtain ⟨hw, hi, hq, hc, hd, rfl⟩ := State.construct_accepted hs
  exact State.initial_inv hw hi hc hq hd

/-- Settles O33, by the cases of a step and of an accepted host operation. -/
theorem parametersNeverChange : Obligations.ParametersNeverChange := by
  refine ⟨fun s t hs => ?_, fun o s t ho => (hostApply_accepted ho).2.params_eq⟩
  rcases step_idle_or_case hs with rfl | ⟨_, hc⟩
  · rfl
  · exact hc.params_eq

end Sys2Proof.Machine
end

-- Executing an instruction under other parameters (00_scope.md)
section
/-! SUPPORT. One instruction under a core's own parameters and under others, `q`, that keep each limit of R5 or take it away: the
two executions go the same way, except where the core meets a limit that `q` does not have. Taking all limits away, keeping
all of them under another policy, and changing nothing are three uses of the one statement, `exec_tracks`. -/

namespace Sys2Proof

/-- No limit that a step can meet. -/
def Params.limitless (q : Params) : Prop := q.width = none ∧ q.memCap = none ∧ q.outDepth = none

end Sys2Proof

namespace Sys2Proof.Machine

/-- The same core under the parameters `q`. -/
def State.withParams (s : State) (q : Params) : State := { s with params := q }

/-- `q` keeps each limit of the core `s` that a step can meet, or, where `L` holds, takes it away; the trace entry of the
instruction at `pc` is the same. -/
structure State.Relaxes (s : State) (q : Params) (L : Prop) : Prop where
  width : q.width = s.params.width ∨ (L ∧ q.width = none)
  memCap : q.memCap = s.params.memCap ∨ (L ∧ q.memCap = none)
  outDepth : q.outDepth = s.params.outDepth ∨ (L ∧ q.outDepth = none)
  traceEn : q.traceEn = s.params.traceEn
  word : (s.withParams q).instrWord = s.instrWord

variable {s g : State} {q : Params} {L : Prop}

theorem State.Relaxes.grown (h : s.Relaxes q L) (hg : Grown s g) : g.Relaxes q L := by
  obtain ⟨n, -, rfl, -⟩ := hg
  exact ⟨h.width, h.memCap, h.outDepth, h.traceEn, h.word⟩

/-! ## One access -/

/-- An address at or above `MEM_CAP` traps with its number (R68, R258). -/
theorem State.addrTrap_beyond {x : Int} (hx : ¬ x < 0) (hb : s.params.below x = false) :
    s.addrTrap x = some { cause := .resourceLimit, addr := some x } := by
  simp [State.addrTrap, hx, hb]

theorem checkTarget_untrapped {a : Int} (h : s.addrTrap a = none) : checkTarget a s = .ok a.toNat s :=
  checkTarget_ok (State.addrTrap_none.1 h) []

theorem checkTarget_trap {a : Int} {t : Trap} (h : s.addrTrap a = some t) : checkTarget a s = .trap t s := by
  simp [checkTarget, h]

theorem relativeAddr_fits {raw : Int} (h : s.fits (s.rb + raw) = true) : relativeAddr raw s = .ok (s.rb + raw) s :=
  relativeAddr_ok h []

theorem relativeAddr_limit {raw : Int} (h : s.fits (s.rb + raw) = false) : relativeAddr raw s = .trap Trap.limit s :=
  if_neg (ne_true_of_eq_false h)

/-! ## The checks -/

/-- The answer `b'` of a check under `q` is the core's answer `b`, unless the core refuses at a limit that `q` does not have;
without limits a check never refuses. -/
def CheckTracks (q : Params) (L : Prop) (b b' : Bool) : Prop := (b' = b ∨ (L ∧ b = false)) ∧ (q.limitless → b' = true)

theorem CheckTracks.and {b b' c c' : Bool} (hb : CheckTracks q L b b') (hc : CheckTracks q L c c') :
    CheckTracks q L (b && c) (b' && c') := by
  obtain ⟨rfl | ⟨hL, rfl⟩, hbl⟩ := hb
  · obtain ⟨rfl | ⟨hL, rfl⟩, hcl⟩ := hc
    · exact ⟨.inl rfl, fun hq => by simp [hbl hq, hcl hq]⟩
    · exact ⟨.inr ⟨hL, Bool.and_false _⟩, fun hq => by simp [hbl hq, hcl hq]⟩
  · exact ⟨.inr ⟨hL, rfl⟩, fun hq => by simp [hbl hq, hc.2 hq]⟩

/-- A check that compares with one limit and refuses nothing where the limit is absent. -/
theorem CheckTracks.of_limit {l l' : Option Nat} (f : Option Nat → Bool) (hf : f none = true)
    (hl : l' = l ∨ (L ∧ l' = none)) (hq : q.limitless → l' = none) : CheckTracks q L (f l) (f l') := by
  refine ⟨?_, fun h => by rw [hq h, hf]⟩
  rcases hl with rfl | ⟨hL, rfl⟩
  · exact .inl rfl
  · cases hb : f l with
    | true => exact .inl hf
    | false => exact .inr ⟨hL, rfl⟩

theorem State.Relaxes.fits (h : s.Relaxes q L) (v : Int) : CheckTracks q L (s.fits v) ((s.withParams q).fits v) :=
  CheckTracks.of_limit (fun w => ({ width := w } : Params).fits v) rfl h.width fun hq => hq.1

theorem State.Relaxes.below (h : s.Relaxes q L) (a : Int) : CheckTracks q L (s.params.below a) (q.below a) :=
  CheckTracks.of_limit (fun c => ({ memCap := c } : Params).below a) rfl h.memCap fun hq => hq.2.1

theorem State.Relaxes.outRoom (h : s.Relaxes q L) : CheckTracks q L s.outRoom (s.withParams q).outRoom :=
  CheckTracks.of_limit (fun d => (s.withParams { outDepth := d }).outRoom) rfl h.outDepth fun hq => hq.2.2

/-- The trap `t` of the core is the resource limit, which `q` does not have, or else `q` does the `same`; without limits it is
no resource limit. -/
def TrapTracks (q : Params) (L : Prop) (t : Trap) (same : Prop) : Prop :=
  (L ∧ t.cause = .resourceLimit) ∨ (same ∧ (q.limitless → t.cause ≠ .resourceLimit))

theorem TrapTracks.imp {t : Trap} {p p' : Prop} (h : TrapTracks q L t p) (f : p → p') : TrapTracks q L t p' :=
  Or.imp_right (And.imp_left f) h

/-- What the core's check allows, the check under `q` allows. -/
theorem CheckTracks.allowed {b' : Bool} (h : CheckTracks q L true b') : b' = true := by
  simpa using h.1

/-- What the core's check refuses, the check under `q` refuses too, or the limit is one that `q` does not have. -/
theorem CheckTracks.refused {b' : Bool} {t : Trap} (h : CheckTracks q L false b') (ht : t.cause = .resourceLimit) :
    TrapTracks q L t (b' = false) := by
  obtain ⟨rfl | ⟨hL, -⟩, hq⟩ := h
  · exact .inr ⟨rfl, fun hl => absurd (hq hl) Bool.false_ne_true⟩
  · exact .inl ⟨hL, ht⟩

/-! ## The phases -/

/-- The reply `u` of a phase under `q` is the core's reply `r`, unless `r` is the trap of a limit that `q` does not have. -/
def Reply.Tracks {α : Type} (r : Reply α) (s : State) (q : Params) (L : Prop) (u : Reply α) : Prop :=
  match r with
  | .ok a g => Grown s g ∧ u = .ok a (g.withParams q)
  | .trap t g => Grown s g ∧ TrapTracks q L t (u = .trap t (g.withParams q))

theorem Reply.Tracks.andThen {α β : Type} {r u : Reply α} {f : α → State → Reply β} (hr : r.Tracks s q L u)
    (hf : ∀ a g, Grown s g → (f a g).Tracks s q L (f a (g.withParams q))) :
    (r.andThen f).Tracks s q L (u.andThen f) := by
  cases r with
  | ok a g =>
    obtain ⟨hg, rfl⟩ := hr
    exact hf a g hg
  | trap t g =>
    obtain ⟨hg, hL | ⟨rfl, hq⟩⟩ := hr
    · exact ⟨hg, .inl hL⟩
    · exact ⟨hg, .inr ⟨rfl, hq⟩⟩

/-- An address that is good for the core is good under `q`. -/
theorem State.Relaxes.addrTrap_none (h : s.Relaxes q L) {a : Int} (ha : s.addrTrap a = none) :
    (s.withParams q).addrTrap a = none := by
  have hm := State.addrTrap_none.1 ha
  have hb : q.below a = true := CheckTracks.allowed (State.inMemory_below hm ▸ h.below a)
  exact State.addrTrap_none.2 (by simp [State.inMemory, State.withParams, State.inMemory_nonneg hm, hb])

/-- An address that traps does so under `q` too, but for a limit that `q` does not have. -/
theorem State.Relaxes.addrTrap_some (h : s.Relaxes q L) {a : Int} {t : Trap} (ha : s.addrTrap a = some t) :
    TrapTracks q L t ((s.withParams q).addrTrap a = some t) := by
  by_cases hn : a < 0
  · rw [State.addrTrap_negative _ hn] at ha ⊢
    cases ha
    exact .inr ⟨rfl, fun _ => by simp⟩
  · cases hb : s.params.below a with
    | true => simp [State.addrTrap, hn, hb] at ha
    | false =>
      rw [State.addrTrap_beyond hn hb] at ha
      cases ha
      exact (CheckTracks.refused (hb ▸ h.below a) rfl).imp fun hq => State.addrTrap_beyond (s := s.withParams q) hn hq

theorem memRead_tracks (h : s.Relaxes q L) (hg : Grown s g) (a : Int) :
    (memRead a g).Tracks s q L (memRead a (g.withParams q)) := by
  have hr := h.grown hg
  cases hc : g.addrTrap a with
  | none =>
    have hm := State.addrTrap_none.1 hc
    rw [memRead_ok hm, memRead_ok (State.addrTrap_none.1 (hr.addrTrap_none hc))]
    exact ⟨hg.trans (Grown.grow hm), rfl⟩
  | some t =>
    rw [memRead_trap hc]
    exact ⟨hg, (hr.addrTrap_some hc).imp memRead_trap⟩

theorem fetchOperand_tracks (h : s.Relaxes q L) (hg : Grown s g) (k : Nat) :
    (fetchOperand k g).Tracks s q L (fetchOperand k (g.withParams q)) := memRead_tracks h hg _

theorem relativeAddr_tracks (h : s.Relaxes q L) (hg : Grown s g) (raw : Int) :
    (relativeAddr raw g).Tracks s q L (relativeAddr raw (g.withParams q)) := by
  have hc := (h.grown hg).fits (g.rb + raw)
  cases hb : g.fits (g.rb + raw) with
  | true =>
    rw [hb] at hc
    rw [relativeAddr_fits hb, relativeAddr_fits (s := g.withParams q) hc.allowed]
    exact ⟨hg, rfl⟩
  | false =>
    rw [hb] at hc
    rw [relativeAddr_limit hb]
    exact ⟨hg, (hc.refused rfl).imp relativeAddr_limit⟩

theorem resolveRead_tracks (h : s.Relaxes q L) (hg : Grown s g) (m : Mode) (raw : Int) :
    (resolveRead m raw g).Tracks s q L (resolveRead m raw (g.withParams q)) := by
  cases m with
  | position => exact memRead_tracks h hg raw
  | immediate => exact ⟨hg, rfl⟩
  | relative => exact (relativeAddr_tracks h hg raw).andThen fun a _ hg => memRead_tracks h hg a

theorem checkTarget_tracks (h : s.Relaxes q L) (hg : Grown s g) (a : Int) :
    (checkTarget a g).Tracks s q L (checkTarget a (g.withParams q)) := by
  have hr := h.grown hg
  cases hc : g.addrTrap a with
  | none =>
    rw [checkTarget_untrapped hc, checkTarget_untrapped (hr.addrTrap_none hc)]
    exact ⟨hg, rfl⟩
  | some t =>
    rw [checkTarget_trap hc]
    exact ⟨hg, (hr.addrTrap_some hc).imp checkTarget_trap⟩

theorem resolveWrite_tracks (h : s.Relaxes q L) (hg : Grown s g) (m : Mode) (raw : Int) :
    (resolveWrite m raw g).Tracks s q L (resolveWrite m raw (g.withParams q)) := by
  cases m with
  | position => exact checkTarget_tracks h hg raw
  | immediate => exact ⟨hg, .inr ⟨rfl, fun _ => by simp⟩⟩
  | relative => exact (relativeAddr_tracks h hg raw).andThen fun a _ hg => checkTarget_tracks h hg a

theorem operandsRRW_tracks (h : s.Relaxes q L) (a b c : Mode) :
    (operandsRRW a b c s).Tracks s q L (operandsRRW a b c (s.withParams q)) :=
  (fetchOperand_tracks h (.refl s) 1).andThen fun raw1 _ hg =>
  (fetchOperand_tracks h hg 2).andThen fun raw2 _ hg =>
  (fetchOperand_tracks h hg 3).andThen fun raw3 _ hg =>
  (resolveRead_tracks h hg a raw1).andThen fun _ _ hg =>
  (resolveRead_tracks h hg b raw2).andThen fun _ _ hg =>
  (resolveWrite_tracks h hg c raw3).andThen fun _ _ hg => ⟨hg, rfl⟩

theorem operandsRR_tracks (h : s.Relaxes q L) (a b : Mode) :
    (operandsRR a b s).Tracks s q L (operandsRR a b (s.withParams q)) :=
  (fetchOperand_tracks h (.refl s) 1).andThen fun raw1 _ hg =>
  (fetchOperand_tracks h hg 2).andThen fun raw2 _ hg =>
  (resolveRead_tracks h hg a raw1).andThen fun _ _ hg =>
  (resolveRead_tracks h hg b raw2).andThen fun _ _ hg => ⟨hg, rfl⟩

theorem operandsR_tracks (h : s.Relaxes q L) (a : Mode) :
    (operandsR a s).Tracks s q L (operandsR a (s.withParams q)) :=
  (fetchOperand_tracks h (.refl s) 1).andThen fun raw1 _ hg => resolveRead_tracks h hg a raw1

theorem operandsW_tracks (h : s.Relaxes q L) (a : Mode) :
    (operandsW a s).Tracks s q L (operandsW a (s.withParams q)) :=
  (fetchOperand_tracks h (.refl s) 1).andThen fun raw1 _ hg => resolveWrite_tracks h hg a raw1

/-! ## The ends of a step -/

theorem State.Relaxes.logged (h : s.Relaxes q L) : (s.withParams q).logged = s.logged.withParams q := by
  have he : (s.withParams q).traceEntry = s.traceEntry := by
    unfold State.traceEntry
    rw [h.word, show (s.withParams q).params.traceEn = s.params.traceEn from h.traceEn]
    rfl
  unfold State.logged
  rw [he]
  rfl

theorem State.Relaxes.raise (h : s.Relaxes q L) (t : Trap) : (s.withParams q).raise t = (s.raise t).withParams q := by
  have hf : (s.withParams q).faultRecord t = s.faultRecord t := by
    unfold State.faultRecord
    rw [h.word]
    rfl
  unfold State.raise
  rw [h.logged, hf]
  rfl

theorem State.Relaxes.halt (h : s.Relaxes q L) : (s.withParams q).halt = s.halt.withParams q := by
  unfold State.halt
  rw [h.logged]
  rfl

theorem State.Relaxes.retire (h : s.Relaxes q L) (p : Int) : (s.withParams q).retire p = (s.retire p).withParams q := by
  unfold State.retire
  rw [h.logged]
  rfl

theorem State.Relaxes.stored (h : s.Relaxes q L) (a : Nat) (v len : Int) :
    (s.withParams q).stored a v len = (s.stored a v len).withParams q := by
  unfold State.stored
  rw [h.logged]
  rfl

/-- The step is fault entry with the cause `ResourceLimit`. -/
def State.atLimit (t : State) : Prop := t.fsm = .faulted ∧ ∃ f, t.fault = some f ∧ f.cause = .resourceLimit

/-- The result `u` under `q` is the core's result `r`, unless the core faults at a limit that `q` does not have; without limits
no new fault record has the cause `ResourceLimit`. -/
def ResultTracks (s : State) (q : Params) (L : Prop) (r u : Result) : Prop :=
  ∀ t, r = .next t →
    (L ∧ t.atLimit) ∨
    (u = .next (t.withParams q) ∧
      (q.limitless → ∀ f, t.fault = some f → s.fault = some f ∨ f.cause ≠ .resourceLimit))

/-- A next state with the old fault record. -/
theorem ResultTracks.next {t t' : State} (ht : t' = t.withParams q) (hf : t.fault = s.fault) :
    ResultTracks s q L (.next t) (.next t') := by
  rintro _ ⟨⟩
  exact .inr ⟨by rw [ht], fun _ f h => .inl (hf ▸ h)⟩

/-- Fault entry. -/
theorem ResultTracks.raise (h : s.Relaxes q L) (hg : Grown s g) {t : Trap} {u : Result}
    (ht : TrapTracks q L t (u = .next ((g.withParams q).raise t))) : ResultTracks s q L (.next (g.raise t)) u := by
  rintro _ ⟨⟩
  rcases ht with ⟨hL, hc⟩ | ⟨rfl, hq⟩
  · exact .inl ⟨hL, rfl, _, rfl, hc⟩
  · refine .inr ⟨by rw [(h.grown hg).raise], fun hl f hf => .inr ?_⟩
    rw [State.raise_fault, Option.some.injEq] at hf
    exact hf ▸ hq hl

theorem Reply.Tracks.finish {α : Type} {r u : Reply α} {k : α → State → Result} (h : s.Relaxes q L)
    (hr : r.Tracks s q L u) (hk : ∀ a g, Grown s g → ResultTracks s q L (k a g) (k a (g.withParams q))) :
    ResultTracks s q L (r.finish k) (u.finish k) := by
  cases r with
  | ok a g =>
    obtain ⟨hg, rfl⟩ := hr
    exact hk a g hg
  | trap t g =>
    obtain ⟨hg, ht⟩ := hr
    exact ResultTracks.raise h hg (ht.imp fun hu => by rw [hu]; rfl)

/-- A guarded commit that keeps the fault record. -/
theorem commit_tracks (h : s.Relaxes q L) (hg : Grown s g) {b b' : Bool} {t t' : State} (hb : CheckTracks q L b b')
    (ht : t' = t.withParams q) (hf : t.fault = g.fault) :
    ResultTracks s q L (g.commit b t) ((g.withParams q).commit b' t') := by
  cases b with
  | true =>
    rw [hb.allowed]
    exact .next ht (hf.trans hg.fault_eq)
  | false => exact ResultTracks.raise h hg ((hb.refused rfl).imp fun hq => by rw [hq]; rfl)

theorem commitStore_tracks (h : s.Relaxes q L) (hg : Grown s g) (a : Nat) (v : Int) :
    ResultTracks s q L (g.commitStore a v) ((g.withParams q).commitStore a v) :=
  have hr := h.grown hg
  commit_tracks h hg ((hr.fits _).and (hr.fits _)) (hr.stored a v 4) rfl

theorem commitJump_tracks (h : s.Relaxes q L) (hg : Grown s g) (p : Int) :
    ResultTracks s q L (g.commitJump p) ((g.withParams q).commitJump p) :=
  have hr := h.grown hg
  commit_tracks h hg (hr.fits p) (hr.retire p) rfl

theorem consumeInput_tracks (h : s.Relaxes q L) (a : Mode) (v : Int) (rest : List Int) :
    ResultTracks s q L (consumeInput a v rest s) (consumeInput a v rest (s.withParams q)) := by
  refine (operandsW_tracks h a).finish h fun adr g hg => ?_
  have hr := h.grown hg
  exact commit_tracks h hg ((hr.fits _).and (hr.fits _)) (by rw [hr.stored]; rfl) rfl

theorem execInput_tracks (h : s.Relaxes q L) (hp : q.policy = s.params.policy) (a : Mode) :
    ResultTracks s q L (execInput a s) (execInput a (s.withParams q)) := by
  unfold execInput
  rw [show (s.withParams q).params.policy = s.params.policy from hp, show (s.withParams q).inq = s.inq from rfl]
  cases s.params.policy with
  | latch => exact .next h.halt rfl
  | blocking =>
    cases s.inq with
    | nil => exact .next rfl rfl
    | cons v rest => exact consumeInput_tracks h a v rest

/-- An instruction goes the same way under the parameters `q`, unless it meets a limit that `q` does not have. The policy, too,
may be another, except for INPUT (R165). -/
theorem exec_tracks (h : s.Relaxes q L) (i : Instr) (hp : q.policy = s.params.policy ∨ ∀ a, i ≠ .input a) :
    ResultTracks s q L (exec i s) (exec i (s.withParams q)) := by
  cases i with
  | add a b c => exact (operandsRRW_tracks h a b c).finish h fun v g hg => commitStore_tracks h hg _ _
  | mul a b c => exact (operandsRRW_tracks h a b c).finish h fun v g hg => commitStore_tracks h hg _ _
  | lessThan a b c => exact (operandsRRW_tracks h a b c).finish h fun v g hg => commitStore_tracks h hg _ _
  | equals a b c => exact (operandsRRW_tracks h a b c).finish h fun v g hg => commitStore_tracks h hg _ _
  | jumpIfTrue a b => exact (operandsRR_tracks h a b).finish h fun v g hg => commitJump_tracks h hg _
  | jumpIfFalse a b => exact (operandsRR_tracks h a b).finish h fun v g hg => commitJump_tracks h hg _
  | input a => exact execInput_tracks h (hp.resolve_right fun hn => hn a rfl) a
  | output a =>
    refine (operandsR_tracks h a).finish h fun v g hg => ?_
    have hr := h.grown hg
    exact commit_tracks h hg (hr.outRoom.and (hr.fits _)) (by rw [hr.retire]; rfl) rfl
  | adjustBase a =>
    refine (operandsR_tracks h a).finish h fun v g hg => ?_
    have hr := h.grown hg
    exact commit_tracks h hg ((hr.fits _).and (hr.fits _)) (by rw [hr.retire]; rfl) rfl
  | halt => exact .next h.halt rfl

/-! ## The step -/

theorem fetchDecode_tracks (h : s.Relaxes q L) : (fetchDecode s).Tracks s q L (fetchDecode (s.withParams q)) := by
  refine (memRead_tracks h (.refl s) s.pc).andThen fun w g hg => ?_
  rw [decodePhase, decodePhase]
  cases decode w with
  | instr i => exact ⟨hg, rfl⟩
  | illegal c => exact ⟨hg, .inr ⟨rfl, fun _ => by simp⟩⟩

theorem step_running (hr : s.fsm = .running) : step s = (fetchDecode s).finish exec := by
  unfold step
  rw [hr]

/-- A step goes the same way under the parameters `q`, unless it meets a limit that `q` does not have. -/
theorem step_tracks (h : s.Relaxes q L) (hp : q.policy = s.params.policy) (hr : s.fsm = .running) :
    ResultTracks s q L (step s) (step (s.withParams q)) := by
  rw [step_running hr, step_running (s := s.withParams q) hr]
  refine (fetchDecode_tracks h).finish h fun i g hg => ?_
  have hi := exec_tracks (h.grown hg) i (.inl (hg.params_eq ▸ hp))
  unfold ResultTracks at hi ⊢
  rwa [hg.fault_eq] at hi

theorem State.withPolicy_eq {t : State} (h : t.params = s.params) (p : Policy) :
    t.withPolicy p = t.withParams { s.params with policy := p } := by
  rw [← h]
  rfl

theorem State.unlimited_eq {t : State} (h : t.params = s.params) : t.unlimited = t.withParams s.unlimited.params := by
  unfold State.unlimited
  rw [h]
  rfl

/-- Another policy keeps every limit. -/
theorem State.relaxes_policy (s : State) (p : Policy) : s.Relaxes { s.params with policy := p } False :=
  ⟨.inl rfl, .inl rfl, .inl rfl, rfl, rfl⟩

/-- Without its limits a core fetches the same word, unless it stands at or above `MEM_CAP`. -/
theorem State.relaxes_unlimited (h : ∀ t, s.addrTrap s.pc = some t → t.cause ≠ .resourceLimit) :
    s.Relaxes s.unlimited.params True := by
  refine ⟨.inr ⟨trivial, rfl⟩, .inr ⟨trivial, rfl⟩, .inr ⟨trivial, rfl⟩, rfl, ?_⟩
  have ht : (s.withParams s.unlimited.params).addrTrap s.pc = s.addrTrap s.pc := by
    by_cases hp : s.pc < 0
    · rw [State.addrTrap_negative _ hp, State.addrTrap_negative _ hp]
    · cases hb : s.params.below s.pc with
      | true =>
        have hm : s.inMemory s.pc = true := by simpa [State.inMemory, hb] using hp
        have hm' : (s.withParams s.unlimited.params).inMemory s.pc = true := by
          simpa [State.inMemory, State.withParams, State.unlimited, Params.below] using hp
        rw [State.addrTrap_none.2 hm, State.addrTrap_none.2 hm']
      | false => exact absurd rfl (h { cause := .resourceLimit, addr := some s.pc } (by simp [State.addrTrap, hp, hb]))
  unfold State.instrWord
  rw [show (s.withParams s.unlimited.params).pc = s.pc from rfl, ht]
  rfl

theorem step_fetch_trap {t : Trap} (hr : s.fsm = .running) (ht : s.addrTrap s.pc = some t) :
    step s = .next (s.raise t) := by
  rw [step_running hr, fetchDecode, memRead_trap ht]
  rfl

end Sys2Proof.Machine
end

-- The obligations that compare two executions (00_scope.md)
section
/-! SUPPORT. The obligations about a core without limits and about the policy, each a use of `step_tracks` or `exec_tracks`. -/

namespace Sys2Proof.Machine

/-- Settles O23: the step is compared with the one under the parameters without limits; a `pc` at or above `MEM_CAP`, where the
two do not even fetch the same word, is the limit's own fault. -/
theorem finiteLimitsOnlyAddAFault : Obligations.FiniteLimitsOnlyAddAFault := by
  intro s t hr hs
  by_cases hpc : ∃ x, s.addrTrap s.pc = some x ∧ x.cause = .resourceLimit
  · obtain ⟨x, hx, hc⟩ := hpc
    rw [step_fetch_trap hr hx, Host.Outcome.next.injEq] at hs
    subst hs
    exact .inl ⟨rfl, _, rfl, hc⟩
  · have hrel := State.relaxes_unlimited fun x hx hc => hpc ⟨x, hx, hc⟩
    rcases step_tracks hrel rfl hr t hs with ⟨-, hlim⟩ | ⟨hu, -⟩
    · exact .inl hlim
    · rw [← State.unlimited_eq (StepCase.of_step hr hs).params_eq] at hu
      exact .inr hu

/-- Settles O22: the step is compared with itself, under its own parameters, which have no limit. -/
theorem unboundedCoreNeverHitsALimit : Obligations.UnboundedCoreNeverHitsALimit := by
  intro s t hu hr hs f hf hnew
  obtain ⟨hw, hm, -, ho⟩ := hu
  rcases step_tracks (s.relaxes_policy s.params.policy) rfl hr t hs with ⟨hL, -⟩ | ⟨-, hq⟩
  · exact hL.elim
  · exact (hq ⟨hw, hm, ho⟩ f hf).resolve_left hnew

/-- Settles O38: the same limits under another policy, for an instruction that is not INPUT. -/
theorem policyOnlyMattersForInput : Obligations.PolicyOnlyMattersForInput := by
  intro i s t p hi hs
  rcases exec_tracks (s.relaxes_policy p) i (.inr hi) t hs with ⟨hL, -⟩ | ⟨hu, -⟩
  · exact hL.elim
  · rw [← State.withPolicy_eq (ExecCase.of_exec hs).params_eq] at hu
    exact hu

end Sys2Proof.Machine
end

-- The limits of R5, place by place (00_scope.md)
section
/-! SUPPORT. What an instruction does when one of its operands traps, and when its commit would exceed a finite limit of R5. -/

namespace Sys2Proof.Machine

variable {s : State} {a b c : Mode} {t : Trap}

/-! ## The first operand that traps -/

/-- Resolving the read operand raises `t`, whatever the step has accessed before. -/
def State.readTraps (s : State) (m : Mode) (raw : Int) (t : Trap) : Prop :=
  ∀ as, resolveRead m raw (s.grown as) = .trap t (s.grown as)

/-- Resolving the write operand raises `t`, whatever the step has accessed before. -/
def State.writeTraps (s : State) (m : Mode) (raw : Int) (t : Trap) : Prop :=
  ∀ as, resolveWrite m raw (s.grown as) = .trap t (s.grown as)

/-- Format `RRW` once its operand words are fetched (R134). -/
theorem operandsRRW_fetched (hf : s.fetchable 3 = true) (a b c : Mode) :
    operandsRRW a b c s =
      (resolveRead a (s.operandWord 1) (s.grown (s.operandAddrs 3))).andThen fun val1 s' =>
      (resolveRead b (s.operandWord 2) s').andThen fun val2 s' =>
      (resolveWrite c (s.operandWord 3) s').andThen fun adr3 s' => .ok (val1, val2, adr3) s' := by
  have h1 := fetchOperand_ok (k := 1) hf (by omega) []
  have h2 := fetchOperand_ok (k := 2) hf (by omega) ([] ++ [(s.pc + (1 : Nat)).toNat])
  have h3 := fetchOperand_ok (k := 3) hf (by omega) ([] ++ [(s.pc + (1 : Nat)).toNat] ++ [(s.pc + (2 : Nat)).toNat])
  rw [State.grown_nil] at h1
  rw [operandsRRW, h1, Reply.andThen, h2, Reply.andThen, h3]
  rfl

theorem operandsRRW_trap_first (hf : s.fetchable 3 = true) (ha : s.readTraps a (s.operandWord 1) t) :
    operandsRRW a b c s = .trap t (s.grown (s.operandAddrs 3)) := by
  rw [operandsRRW_fetched hf, ha]
  rfl

theorem operandsRRW_trap_second (hf : s.fetchable 3 = true) (ha : s.addressable a (s.operandWord 1) = true)
    (hb : s.readTraps b (s.operandWord 2) t) :
    operandsRRW a b c s = .trap t (s.grown (s.operandAddrs 3 ++ s.reads a (s.operandWord 1))) := by
  rw [operandsRRW_fetched hf, resolveRead_ok ha, Reply.andThen, hb]
  rfl

theorem operandsRRW_trap_target (hf : s.fetchable 3 = true) (ha : s.addressable a (s.operandWord 1) = true)
    (hb : s.addressable b (s.operandWord 2) = true) (hc : s.writeTraps c (s.operandWord 3) t) :
    operandsRRW a b c s =
      .trap t (s.grown (s.operandAddrs 3 ++ s.reads a (s.operandWord 1) ++ s.reads b (s.operandWord 2))) := by
  rw [operandsRRW_fetched hf, resolveRead_ok ha, Reply.andThen, resolveRead_ok hb, Reply.andThen, hc]
  rfl

/-- Format `RR` once its operand words are fetched (R134). -/
theorem operandsRR_fetched (hf : s.fetchable 2 = true) (a b : Mode) :
    operandsRR a b s =
      (resolveRead a (s.operandWord 1) (s.grown (s.operandAddrs 2))).andThen fun val1 s' =>
      (resolveRead b (s.operandWord 2) s').andThen fun val2 s' => .ok (val1, val2) s' := by
  have h1 := fetchOperand_ok (k := 1) hf (by omega) []
  have h2 := fetchOperand_ok (k := 2) hf (by omega) ([] ++ [(s.pc + (1 : Nat)).toNat])
  rw [State.grown_nil] at h1
  rw [operandsRR, h1, Reply.andThen, h2]
  rfl

theorem operandsRR_trap_first (hf : s.fetchable 2 = true) (ha : s.readTraps a (s.operandWord 1) t) :
    operandsRR a b s = .trap t (s.grown (s.operandAddrs 2)) := by
  rw [operandsRR_fetched hf, ha]
  rfl

theorem operandsRR_trap_second (hf : s.fetchable 2 = true) (ha : s.addressable a (s.operandWord 1) = true)
    (hb : s.readTraps b (s.operandWord 2) t) :
    operandsRR a b s = .trap t (s.grown (s.operandAddrs 2 ++ s.reads a (s.operandWord 1))) := by
  rw [operandsRR_fetched hf, resolveRead_ok ha, Reply.andThen, hb]
  rfl

theorem fetchOperand_first (hf : s.fetchable 1 = true) :
    fetchOperand 1 s = .ok (s.operandWord 1) (s.grown (s.operandAddrs 1)) :=
  fetchOperand_ok (k := 1) hf (Nat.le_refl 1) []

theorem operandsR_trap (hf : s.fetchable 1 = true) (ha : s.readTraps a (s.operandWord 1) t) :
    operandsR a s = .trap t (s.grown (s.operandAddrs 1)) := by
  rw [operandsR, fetchOperand_first hf, Reply.andThen, ha]

theorem operandsW_trap (hf : s.fetchable 1 = true) (ha : s.writeTraps a (s.operandWord 1) t) :
    operandsW a s = .trap t (s.grown (s.operandAddrs 1)) := by
  rw [operandsW, fetchOperand_first hf, Reply.andThen, ha]

/-! ## The instructions of a format -/

/-- What ADD, MUL, LESS-THAN and EQUALS have in common. -/
theorem exec_storing {i : Instr} (hi : i ∈ [Instr.add a b c, .mul a b c, .lessThan a b c, .equals a b c]) :
    ∃ f : Int → Int → Int, ∀ s,
      exec i s = (operandsRRW a b c s).finish fun v g => g.commitStore v.2.2 (f v.1 v.2.1) := by
  simp only [List.mem_cons, List.not_mem_nil, or_false] at hi
  rcases hi with rfl | rfl | rfl | rfl
  · exact ⟨(· + ·), fun _ => rfl⟩
  · exact ⟨(· * ·), fun _ => rfl⟩
  · exact ⟨lessCell, fun _ => rfl⟩
  · exact ⟨equalCell, fun _ => rfl⟩

/-- What the jumps have in common. -/
theorem exec_jumping {i : Instr} (hi : i ∈ [Instr.jumpIfTrue a b, .jumpIfFalse a b]) :
    ∃ f : Int → Bool, ∀ s, exec i s = (operandsRR a b s).finish fun v g => g.commitJump (jumpTarget (f v.1) v.2 g) := by
  simp only [List.mem_cons, List.not_mem_nil, or_false] at hi
  rcases hi with rfl | rfl
  · exact ⟨conditionTrue, fun _ => rfl⟩
  · exact ⟨fun x => !conditionTrue x, fun _ => rfl⟩

/-- What OUTPUT and ADJUST-BASE have in common. -/
theorem exec_reading {i : Instr} (hi : i ∈ [Instr.output a, .adjustBase a]) :
    ∃ k : Int → State → Result, ∀ s, exec i s = (operandsR a s).finish k := by
  simp only [List.mem_cons, List.not_mem_nil, or_false] at hi
  rcases hi with rfl | rfl <;> exact ⟨_, fun _ => rfl⟩

/-- INPUT under `Blocking` with data present (R161). -/
theorem exec_input_consumes {v : Int} {rest : List Int} (hp : s.params.policy = .blocking) (hq : s.inq = v :: rest)
    (a : Mode) : exec (.input a) s = consumeInput a v rest s := by
  rw [exec, execInput, hp, hq]

/-- A phase that traps after the accesses `as` ends in fault entry (R270). -/
theorem finish_trap {α : Type} {k : α → State → Result} {as : List Nat} (h : s.inMemory s.pc = true) :
    (Reply.trap t (s.grown as)).finish k = .next (s.afterFault t.cause t.addr as) :=
  congrArg Host.Outcome.next (State.raise_grown as t h)

/-! ## A limited operand -/

variable {m : Mode} {raw : Int} {x : Option Int}

theorem State.limitedOperand.readTraps (h : s.limitedOperand m raw x) :
    s.readTraps m raw { cause := .resourceLimit, addr := x } := by
  intro as
  rcases h with ⟨rfl, hf, rfl⟩ | ⟨y, he, hr, hy, hb, rfl⟩
  · rw [resolveRead, relativeAddr_limit (s := s.grown as) hf]
    rfl
  · have ht : (s.grown as).addrTrap y = _ := State.addrTrap_beyond (Int.not_lt.2 hy) hb
    cases m with
    | position => cases he; exact memRead_trap ht
    | immediate => cases he
    | relative => cases he; rw [resolveRead, relativeAddr_ok (hr rfl)]; exact memRead_trap ht

theorem State.limitedOperand.writeTraps (h : s.limitedOperand m raw x) :
    s.writeTraps m raw { cause := .resourceLimit, addr := x } := by
  intro as
  rcases h with ⟨rfl, hf, rfl⟩ | ⟨y, he, hr, hy, hb, rfl⟩
  · rw [resolveWrite, relativeAddr_limit (s := s.grown as) hf]
    rfl
  · have ht : (s.grown as).addrTrap y = _ := State.addrTrap_beyond (Int.not_lt.2 hy) hb
    cases m with
    | position => cases he; exact checkTarget_trap ht
    | immediate => cases he
    | relative => cases he; rw [resolveWrite, relativeAddr_ok (hr rfl)]; exact checkTarget_trap ht

/-! ## A commit beyond a limit -/

variable {as : List Nat}

/-- A commit that a limit forbids is fault entry (R258). -/
theorem commit_refused {ok : Bool} {u : State} (h : s.inMemory s.pc = true) (hx : ok = false) :
    (s.grown as).commit ok u = .next (s.afterFault .resourceLimit none as) := by
  subst hx
  exact congrArg Host.Outcome.next (State.raise_grown as Trap.limit h)

theorem commitStore_refused {adr : Nat} {v : Int} (h : s.inMemory s.pc = true)
    (hx : s.fits v = false ∨ s.fits (s.pc + 4) = false) :
    (s.grown as).commitStore adr v = .next (s.afterFault .resourceLimit none as) :=
  commit_refused h (Bool.and_eq_false_iff.2 hx)

theorem commitJump_refused {p : Int} (h : s.inMemory s.pc = true) (hx : s.fits p = false) :
    (s.grown as).commitJump p = .next (s.afterFault .resourceLimit none as) :=
  commit_refused h hx

/-- Where its operands resolve, a jump commits to where it goes. -/
theorem exec_jump_resolved {i : Instr} (h : s.resolvesRR a b) (hi : i ∈ [Instr.jumpIfTrue a b, .jumpIfFalse a b]) :
    exec i s = (s.grown (s.operandAddrs 2 ++ s.reads a (s.operandWord 1) ++ s.reads b (s.operandWord 2))).commitJump
      (s.jumpsTo i) := by
  obtain ⟨hf, ha, hb⟩ := h
  have hpc : ∀ as, (s.grown as).pc = s.pc := fun _ => rfl
  simp only [List.mem_cons, List.not_mem_nil, or_false] at hi
  rcases hi with rfl | rfl
  · rw [exec, execJumpIfTrue, operandsRR_ok hf ha hb, Reply.finish]
    by_cases hz : s.value a (s.operandWord 1) = 0 <;> simp [State.jumpsTo, jumpTarget, conditionTrue, hz, hpc]
  · rw [exec, execJumpIfFalse, operandsRR_ok hf ha hb, Reply.finish]
    by_cases hz : s.value a (s.operandWord 1) = 0 <;> simp [State.jumpsTo, jumpTarget, conditionTrue, hz, hpc]

/-- The jump whose test fails on the first operand's value falls through (R183). -/
theorem State.jumpsTo_fallThrough {i : Instr} (hi : i ∈ [Instr.jumpIfTrue a b, .jumpIfFalse a b])
    (hz : s.value a (s.operandWord 1) = 0 ↔ i = .jumpIfTrue a b) : s.jumpsTo i = s.pc + 3 := by
  simp only [List.mem_cons, List.not_mem_nil, or_false] at hi
  rcases hi with rfl | rfl
  · exact if_pos (hz.2 rfl)
  · exact if_neg fun h => Instr.noConfusion (hz.1 h)

/-- The jump whose test succeeds on the first operand's value goes to the second operand's value (R183). -/
theorem State.jumpsTo_target {i : Instr} (hi : i ∈ [Instr.jumpIfTrue a b, .jumpIfFalse a b])
    (hz : s.value a (s.operandWord 1) = 0 ↔ i = .jumpIfFalse a b) : s.jumpsTo i = s.value b (s.operandWord 2) := by
  simp only [List.mem_cons, List.not_mem_nil, or_false] at hi
  rcases hi with rfl | rfl
  · exact if_neg fun h => Instr.noConfusion (hz.1 h)
  · exact if_pos (hz.2 rfl)

/-- A fault at fetch: no word, no trace entry, no growth (R131, R260, R270). -/
theorem State.raise_unfetched (h : s.addrTrap s.pc = some t) :
    s.raise t =
      { s with
        fsm := .faulted
        fault := some { cause := t.cause, pc := s.pc, word := none, opcode := none, addr := t.addr } } := by
  have hw : s.instrWord = none := by
    rw [State.instrWord, h]
  rw [State.raise, State.faultRecord, State.logged, State.traceEntry_unfetched (State.not_inMemory_of_addrTrap h), hw,
    List.append_nil]
  rfl

end Sys2Proof.Machine
end

-- The obligations about single limits (00_scope.md)
section
/-! SUPPORT. The obligations about exceeded limits, from the lemmas above. -/

namespace Sys2Proof.Machine

/-- Settles O52: a limited operand traps when it is resolved, and everything before it has resolved. -/
theorem limitedOperandFaults : Obligations.LimitedOperandFaults := by
  intro s a b c x
  refine ⟨fun hf i hi => ?_, fun hf i hi => ?_, fun hf ha => ⟨fun i hi => ?_, fun hp hq => ?_⟩⟩
  · obtain ⟨f, hx⟩ := exec_storing hi
    rw [hx]
    refine ⟨fun ha => ?_, fun ha hb => ?_, fun ha hb hc => ?_⟩
    · rw [operandsRRW_trap_first hf ha.readTraps, finish_trap (State.fetchable_pc hf)]
    · rw [operandsRRW_trap_second hf ha hb.readTraps, finish_trap (State.fetchable_pc hf)]
    · rw [operandsRRW_trap_target hf ha hb hc.writeTraps, finish_trap (State.fetchable_pc hf)]
  · obtain ⟨f, hx⟩ := exec_jumping hi
    rw [hx]
    refine ⟨fun ha => ?_, fun ha hb => ?_⟩
    · rw [operandsRR_trap_first hf ha.readTraps, finish_trap (State.fetchable_pc hf)]
    · rw [operandsRR_trap_second hf ha hb.readTraps, finish_trap (State.fetchable_pc hf)]
  · obtain ⟨k, hx⟩ := exec_reading hi
    rw [hx, operandsR_trap hf ha.readTraps, finish_trap (State.fetchable_pc hf)]
  · obtain ⟨v, rest, hv⟩ := List.exists_cons_of_ne_nil hq
    rw [exec_input_consumes hp hv, consumeInput, operandsW_trap hf ha.writeTraps, finish_trap (State.fetchable_pc hf)]

/-- Settles O20: the operands resolve and the commit is refused; the last two clauses are limited operands, as in O52. -/
theorem exceededLimitFaults : Obligations.ExceededLimitFaults := by
  intro s a b c
  refine ⟨fun ⟨hf, ha, hb, hc, hw⟩ => ?_, fun ⟨hf, ha⟩ => ?_, fun hf => ?_⟩
  · have hpc := State.fetchable_pc hf
    refine ⟨fun hx => ?_, fun hx => ?_⟩
    · rw [exec, execAdd, operandsRRW_ok hf ha hb hc hw]
      exact commitStore_refused hpc hx
    · rw [exec, execMul, operandsRRW_ok hf ha hb hc hw]
      exact commitStore_refused hpc hx
  · have hpc := State.fetchable_pc hf
    refine ⟨fun hx => ?_, fun hx => ?_⟩
    · rw [exec, execAdjustBase, operandsR_ok hf ha]
      exact commit_refused hpc (Bool.and_eq_false_iff.2 hx)
    · rw [exec, execOutput, operandsR_ok hf ha]
      exact commit_refused hpc (Bool.and_eq_false_iff.2 hx)
  · have limited {m : Mode} {x : Option Int} (h : s.limitedOperand m (s.operandWord 1) x) :
        exec (.output m) s = .next (s.afterFault .resourceLimit x (s.operandAddrs 1)) :=
      ((limitedOperandFaults s m m m x).2.2 hf h).1 _ (by simp)
    exact ⟨fun hr => limited (.inl ⟨rfl, hr, rfl⟩),
      fun h0 hb => limited (.inr ⟨_, rfl, by simp, h0, hb, rfl⟩)⟩

/-- Settles O21: the operands resolve and the commit is refused; at the fetch the trap is the address's own. -/
theorem exceededLimitFaultsElsewhere : Obligations.ExceededLimitFaultsElsewhere := by
  intro s a b c
  refine ⟨fun ⟨hf, ha, hb, hc, hw⟩ hx i hi => ?_, fun hres => ⟨fun i hi hz hx => ?_, fun i hi hz hx => ?_⟩,
    fun v rest hp hq ⟨hf, ha, hw⟩ hx => ?_, fun hr h0 hb => ?_⟩
  · obtain ⟨f, he⟩ := exec_storing (List.mem_cons_of_mem (.add a b c) (List.mem_cons_of_mem (.mul a b c) hi))
    rw [he, operandsRRW_ok hf ha hb hc hw]
    exact commitStore_refused (State.fetchable_pc hf) (.inr hx)
  · rw [exec_jump_resolved hres hi, State.jumpsTo_fallThrough hi hz]
    exact commitJump_refused (State.fetchable_pc hres.1) hx
  · rw [exec_jump_resolved hres hi, State.jumpsTo_target hi hz]
    exact commitJump_refused (State.fetchable_pc hres.1) hx
  · rw [exec_input_consumes hp hq, consumeInput, operandsW_ok hf ha hw]
    exact commit_refused (State.fetchable_pc hf) (Bool.and_eq_false_iff.2 hx)
  · have ht := State.addrTrap_beyond (Int.not_lt.2 h0) hb
    rw [step_fetch_trap hr ht, State.raise_unfetched ht]

end Sys2Proof.Machine
end

-- Two cores that differ in hidden state only (10_state.md)
section
/-! SUPPORT. Two cores that agree on everything but `mlen`, `trace`, `fault`, `latch` and `outq` take the same step (R140): every
phase answers the same value or the same trap, and every end of a step keeps the agreement. -/

namespace Sys2Proof.Machine

/-- `s` and `u` agree on what steers a step. Their output queues are `q` and `q'` with the same values appended, and no depth
bounds them; in `Faulted` they have the same record. -/
structure State.Agree (q q' : List Int) (s u : State) : Prop where
  pc : u.pc = s.pc
  rb : u.rb = s.rb
  mem : u.mem = s.mem
  inq : u.inq = s.inq
  fsm : u.fsm = s.fsm
  params : u.params = s.params
  fault : s.fsm = .faulted → u.fault = s.fault
  outq : ∃ out, s.outq = q ++ out ∧ u.outq = q' ++ out
  unbounded : s.params.outDepth = none

variable {q q' : List Int} {s u : State}

/-! ## The checks -/

theorem State.Agree.fits_eq (h : s.Agree q q' u) (v : Int) : u.fits v = s.fits v := by
  rw [State.fits, State.fits, h.params]

theorem State.Agree.addrTrap_eq (h : s.Agree q q' u) (a : Int) : u.addrTrap a = s.addrTrap a := by
  rw [State.addrTrap, State.addrTrap, h.params]

theorem State.Agree.instrWord_eq (h : s.Agree q q' u) : u.instrWord = s.instrWord := by
  rw [State.instrWord, State.instrWord, h.pc, h.mem, h.addrTrap_eq]

theorem State.outRoom_unbounded (h : s.params.outDepth = none) : s.outRoom = true := by
  rw [State.outRoom, h]

/-! ## The updates -/

theorem State.Agree.grow (h : s.Agree q q' u) (a : Nat) : (s.grow a).Agree q q' (u.grow a) := { h with }

theorem State.Agree.raise (h : s.Agree q q' u) (t : Trap) : (s.raise t).Agree q q' (u.raise t) :=
  { h with
    fsm := rfl
    fault := fun _ => by simp [State.faultRecord, h.pc, h.instrWord_eq] }

theorem State.Agree.suspend (h : s.Agree q q' u) : s.suspend.Agree q q' u.suspend :=
  { h with fsm := rfl, fault := nofun }

theorem State.Agree.halt (h : s.Agree q q' u) : s.halt.Agree q q' u.halt :=
  { h with fsm := rfl, fault := nofun }

theorem State.Agree.retire (h : s.Agree q q' u) (p : Int) : (s.retire p).Agree q q' (u.retire p) :=
  { h with pc := rfl }

theorem State.Agree.stored (h : s.Agree q q' u) (a : Nat) (v len : Int) :
    (s.stored a v len).Agree q q' (u.stored a v len) :=
  { h with
    pc := by simp [h.pc]
    mem := by simp [h.mem] }

theorem State.Agree.rebased (h : s.Agree q q' u) (r : Int) :
    State.Agree q q' { s with rb := r } { u with rb := r } := { h with rb := rfl }

theorem State.Agree.popped (h : s.Agree q q' u) (rest : List Int) :
    State.Agree q q' { s with inq := rest } { u with inq := rest } := { h with inq := rfl }

theorem State.Agree.emitted (h : s.Agree q q' u) (v : Int) :
    State.Agree q q' { s with outq := s.outq ++ [v], latch := some v } { u with outq := u.outq ++ [v], latch := some v } := by
  obtain ⟨out, hs, hu⟩ := h.outq
  exact { h with outq := ⟨out ++ [v], by simp [hs], by simp [hu]⟩ }

/-! ## The phases -/

/-- The same value or the same trap, in states that agree. -/
def Reply.Agree {α : Type} (q q' : List Int) (r r' : Reply α) : Prop :=
  match r with
  | .ok a s => ∃ u, r' = .ok a u ∧ s.Agree q q' u
  | .trap t s => ∃ u, r' = .trap t u ∧ s.Agree q q' u

theorem Reply.Agree.andThen {α β : Type} {r r' : Reply α} {f : α → State → Reply β} (hr : r.Agree q q' r')
    (hf : ∀ a s u, s.Agree q q' u → (f a s).Agree q q' (f a u)) : (r.andThen f).Agree q q' (r'.andThen f) := by
  cases r with
  | ok a s =>
    obtain ⟨u, rfl, h⟩ := hr
    exact hf a s u h
  | trap t s =>
    obtain ⟨u, rfl, h⟩ := hr
    exact ⟨u, rfl, h⟩

theorem memRead_agree (h : s.Agree q q' u) (a : Int) : (memRead a s).Agree q q' (memRead a u) := by
  rw [memRead, memRead, h.addrTrap_eq, h.mem]
  cases s.addrTrap a with
  | some t => exact ⟨u, rfl, h⟩
  | none => exact ⟨_, rfl, h.grow _⟩

theorem fetchOperand_agree (h : s.Agree q q' u) (k : Nat) : (fetchOperand k s).Agree q q' (fetchOperand k u) := by
  rw [fetchOperand, fetchOperand, h.pc]
  exact memRead_agree h _

theorem relativeAddr_agree (h : s.Agree q q' u) (raw : Int) : (relativeAddr raw s).Agree q q' (relativeAddr raw u) := by
  rw [relativeAddr, relativeAddr, h.rb, h.fits_eq]
  split
  · exact ⟨u, rfl, h⟩
  · exact ⟨u, rfl, h⟩

theorem resolveRead_agree (h : s.Agree q q' u) (m : Mode) (raw : Int) :
    (resolveRead m raw s).Agree q q' (resolveRead m raw u) := by
  cases m with
  | position => exact memRead_agree h raw
  | immediate => exact ⟨u, rfl, h⟩
  | relative => exact (relativeAddr_agree h raw).andThen fun a _ _ h => memRead_agree h a

theorem checkTarget_agree (h : s.Agree q q' u) (a : Int) : (checkTarget a s).Agree q q' (checkTarget a u) := by
  rw [checkTarget, checkTarget, h.addrTrap_eq]
  cases s.addrTrap a with
  | some t => exact ⟨u, rfl, h⟩
  | none => exact ⟨u, rfl, h⟩

theorem resolveWrite_agree (h : s.Agree q q' u) (m : Mode) (raw : Int) :
    (resolveWrite m raw s).Agree q q' (resolveWrite m raw u) := by
  cases m with
  | position => exact checkTarget_agree h raw
  | immediate => exact ⟨u, rfl, h⟩
  | relative => exact (relativeAddr_agree h raw).andThen fun a _ _ h => checkTarget_agree h a

theorem operandsRRW_agree (h : s.Agree q q' u) (a b c : Mode) :
    (operandsRRW a b c s).Agree q q' (operandsRRW a b c u) :=
  (fetchOperand_agree h 1).andThen fun raw1 _ _ h =>
  (fetchOperand_agree h 2).andThen fun raw2 _ _ h =>
  (fetchOperand_agree h 3).andThen fun raw3 _ _ h =>
  (resolveRead_agree h a raw1).andThen fun _ _ _ h =>
  (resolveRead_agree h b raw2).andThen fun _ _ _ h =>
  (resolveWrite_agree h c raw3).andThen fun _ _ u h => ⟨u, rfl, h⟩

theorem operandsRR_agree (h : s.Agree q q' u) (a b : Mode) : (operandsRR a b s).Agree q q' (operandsRR a b u) :=
  (fetchOperand_agree h 1).andThen fun raw1 _ _ h =>
  (fetchOperand_agree h 2).andThen fun raw2 _ _ h =>
  (resolveRead_agree h a raw1).andThen fun _ _ _ h =>
  (resolveRead_agree h b raw2).andThen fun _ _ u h => ⟨u, rfl, h⟩

theorem operandsR_agree (h : s.Agree q q' u) (a : Mode) : (operandsR a s).Agree q q' (operandsR a u) :=
  (fetchOperand_agree h 1).andThen fun raw1 _ _ h => resolveRead_agree h a raw1

theorem operandsW_agree (h : s.Agree q q' u) (a : Mode) : (operandsW a s).Agree q q' (operandsW a u) :=
  (fetchOperand_agree h 1).andThen fun raw1 _ _ h => resolveWrite_agree h a raw1

/-! ## The ends of a step -/

/-- Both answer a next state, and the two agree. -/
def ResultAgree (q q' : List Int) (r r' : Result) : Prop := ∃ t t', r = .next t ∧ r' = .next t' ∧ t.Agree q q' t'

theorem ResultAgree.next {t t' : State} (h : t.Agree q q' t') : ResultAgree q q' (.next t) (.next t') :=
  ⟨t, t', rfl, rfl, h⟩

theorem Reply.Agree.finish {α : Type} {r r' : Reply α} {k : α → State → Result} (hr : r.Agree q q' r')
    (hk : ∀ a s u, s.Agree q q' u → ResultAgree q q' (k a s) (k a u)) :
    ResultAgree q q' (r.finish k) (r'.finish k) := by
  cases r with
  | ok a s =>
    obtain ⟨u, rfl, h⟩ := hr
    exact hk a s u h
  | trap t s =>
    obtain ⟨u, rfl, h⟩ := hr
    exact .next (h.raise t)

/-- A guarded commit whose check gives both the same answer. -/
theorem commit_agree (h : s.Agree q q' u) {b b' : Bool} {t t' : State} (hb : b' = b) (ht : t.Agree q q' t') :
    ResultAgree q q' (s.commit b t) (u.commit b' t') := by
  subst hb
  cases b' with
  | true => exact .next ht
  | false => exact .next (h.raise Trap.limit)

theorem commitStore_agree (h : s.Agree q q' u) (a : Nat) (v : Int) :
    ResultAgree q q' (s.commitStore a v) (u.commitStore a v) :=
  commit_agree h (by rw [h.pc, h.fits_eq, h.fits_eq]) (h.stored a v 4)

theorem commitJump_agree (h : s.Agree q q' u) (taken : Bool) (target : Int) :
    ResultAgree q q' (s.commitJump (jumpTarget taken target s)) (u.commitJump (jumpTarget taken target u)) := by
  rw [show jumpTarget taken target u = jumpTarget taken target s by rw [jumpTarget, jumpTarget, h.pc]]
  exact commit_agree h (h.fits_eq _) (h.retire _)

theorem consumeInput_agree (h : s.Agree q q' u) (a : Mode) (v : Int) (rest : List Int) :
    ResultAgree q q' (consumeInput a v rest s) (consumeInput a v rest u) :=
  (operandsW_agree h a).finish fun adr _ _ h =>
    commit_agree h (by rw [h.pc, h.fits_eq, h.fits_eq]) ((h.stored adr v 2).popped rest)

theorem execInput_agree (h : s.Agree q q' u) (a : Mode) : ResultAgree q q' (execInput a s) (execInput a u) := by
  rw [execInput, execInput, h.params, h.inq]
  cases s.params.policy with
  | latch => exact .next h.halt
  | blocking =>
    cases s.inq with
    | nil => exact .next h.suspend
    | cons v rest => exact consumeInput_agree h a v rest

theorem execOutput_agree (h : s.Agree q q' u) (a : Mode) : ResultAgree q q' (execOutput a s) (execOutput a u) := by
  refine (operandsR_agree h a).finish fun v g g' h => ?_
  have hroom : g'.outRoom = g.outRoom := by
    rw [State.outRoom_unbounded h.unbounded, State.outRoom_unbounded (h.params ▸ h.unbounded)]
  rw [h.pc]
  exact commit_agree h (by rw [hroom, h.fits_eq]) ((h.retire _).emitted v)

theorem execAdjustBase_agree (h : s.Agree q q' u) (a : Mode) :
    ResultAgree q q' (execAdjustBase a s) (execAdjustBase a u) := by
  refine (operandsR_agree h a).finish fun v g g' h => ?_
  rw [h.pc, h.rb]
  exact commit_agree h (by rw [h.fits_eq, h.fits_eq]) ((h.retire _).rebased _)

theorem exec_agree (h : s.Agree q q' u) (i : Instr) : ResultAgree q q' (exec i s) (exec i u) := by
  cases i with
  | add a b c => exact (operandsRRW_agree h a b c).finish fun v _ _ h => commitStore_agree h _ _
  | mul a b c => exact (operandsRRW_agree h a b c).finish fun v _ _ h => commitStore_agree h _ _
  | lessThan a b c => exact (operandsRRW_agree h a b c).finish fun v _ _ h => commitStore_agree h _ _
  | equals a b c => exact (operandsRRW_agree h a b c).finish fun v _ _ h => commitStore_agree h _ _
  | jumpIfTrue a b => exact (operandsRR_agree h a b).finish fun v _ _ h => commitJump_agree h _ _
  | jumpIfFalse a b => exact (operandsRR_agree h a b).finish fun v _ _ h => commitJump_agree h _ _
  | input a => exact execInput_agree h a
  | output a => exact execOutput_agree h a
  | adjustBase a => exact execAdjustBase_agree h a
  | halt => exact .next h.halt

/-! ## The step -/

theorem fetchDecode_agree (h : s.Agree q q' u) : (fetchDecode s).Agree q q' (fetchDecode u) := by
  rw [fetchDecode, fetchDecode, h.pc]
  refine (memRead_agree h s.pc).andThen fun w g g' h => ?_
  rw [decodePhase, decodePhase]
  cases decode w with
  | instr i => exact ⟨g', rfl, h⟩
  | illegal c => exact ⟨g', rfl, h⟩

/-- `Running` cores that agree take the same step. -/
theorem step_agree (h : s.Agree q q' u) (hr : s.fsm = .running) : ResultAgree q q' (step s) (step u) := by
  rw [step_running hr, step_running (h.fsm.trans hr)]
  exact (fetchDecode_agree h).finish fun i _ _ h => exec_agree h i

/-- A `Running` core with an unbounded output queue agrees with itself under any hidden state. -/
theorem State.agree_hidden (hr : s.fsm = .running) (ho : s.params.outDepth = none) (mlen : Nat) (trace : List (Int × Int))
    (fault : Option FaultRecord) (latch : Option Int) (outq : List Int) :
    s.Agree s.outq outq { s with mlen := mlen, trace := trace, fault := fault, latch := latch, outq := outq } :=
  ⟨rfl, rfl, rfl, rfl, rfl, rfl, by simp [hr], ⟨[], by simp, by simp⟩, ho⟩

end Sys2Proof.Machine
end

-- What a step changes, piece by piece (10_state.md)
section
/-! SUPPORT. The base, the length, the queues and the trace after a step, each read off the cases of `ExecCase`. -/

namespace Sys2Proof.Machine

variable {s g t : State} {i : Instr}

/-! ## Reads -/

theorem Grown.mlen_le (h : Grown s g) : s.mlen ≤ g.mlen := by
  obtain ⟨n, hn, rfl, -⟩ := h
  exact hn

theorem Grown.rb_eq (h : Grown s g) : g.rb = s.rb := by
  obtain ⟨n, -, rfl, -⟩ := h
  rfl

theorem Grown.inq_eq (h : Grown s g) : g.inq = s.inq := by
  obtain ⟨n, -, rfl, -⟩ := h
  rfl

theorem Grown.outq_eq (h : Grown s g) : g.outq = s.outq := by
  obtain ⟨n, -, rfl, -⟩ := h
  rfl

theorem Grown.latch_eq (h : Grown s g) : g.latch = s.latch := by
  obtain ⟨n, -, rfl, -⟩ := h
  rfl

theorem Grown.fsm_eq (h : Grown s g) : g.fsm = s.fsm := by
  obtain ⟨n, -, rfl, -⟩ := h
  rfl

/-- Reads change neither the trace nor the entry that the instruction at `pc` adds to it. -/
theorem Grown.logged_trace (h : Grown s g) : g.logged.trace = s.logged.trace := by
  obtain ⟨n, -, rfl, -⟩ := h
  rfl

/-! ## Executing an instruction -/

/-- Executing an instruction never lowers `mlen` (R54). -/
theorem ExecCase.mlen_le (h : ExecCase s i t) : s.mlen ≤ t.mlen := by
  cases h with
  | trap _ _ _ hg | output _ _ hg | jump _ _ _ hg | adjust _ _ hg => exact hg.mlen_le
  | store _ _ _ hg | consume _ _ _ _ _ _ hg => exact hg.mlen_le.trans (Nat.le_max_left _ _)
  | suspend | latchHalt | halt => exact Nat.le_refl _

/-- Only ADJUST-BASE changes `rb` (R200). -/
theorem ExecCase.rb_cases (h : ExecCase s i t) :
    t.rb = s.rb ∨ ∃ a, i = .adjustBase a ∧ t.rb = s.rb + s.value a (s.operandWord 1) := by
  cases h with
  | adjust a => exact .inr ⟨a, rfl, rfl⟩
  | trap _ _ _ hg | store _ _ _ hg | consume _ _ _ _ _ _ hg | output _ _ hg | jump _ _ _ hg => exact .inl hg.rb_eq
  | suspend | latchHalt | halt => exact .inl rfl

/-- Only INPUT takes from the input queue, and it takes the head (R161). -/
theorem ExecCase.inq_cases (h : ExecCase s i t) : t.inq = s.inq ∨ ∃ v a, s.inq = v :: t.inq ∧ i = .input a := by
  cases h with
  | consume a _ v _ _ hq => exact .inr ⟨v, a, hq, rfl⟩
  | trap _ _ _ hg | store _ _ _ hg | output _ _ hg | jump _ _ _ hg | adjust _ _ hg => exact .inl hg.inq_eq
  | suspend | latchHalt | halt => exact .inl rfl

/-- Only OUTPUT touches the output queue and the latch: its value goes to the back of the one and into the other (R171). -/
theorem ExecCase.outq_cases (h : ExecCase s i t) :
    (t.outq = s.outq ∧ t.latch = s.latch) ∨
      ∃ a, i = .output a ∧ t.outq = s.outq ++ [s.value a (s.operandWord 1)] ∧
        t.latch = some (s.value a (s.operandWord 1)) := by
  cases h with
  | output a => exact .inr ⟨a, rfl, rfl, rfl⟩
  | trap _ _ _ hg | store _ _ _ hg | consume _ _ _ _ _ _ hg | jump _ _ _ hg | adjust _ _ hg =>
    exact .inl ⟨hg.outq_eq, hg.latch_eq⟩
  | suspend | latchHalt | halt => exact .inl ⟨rfl, rfl⟩

/-- Blocking leaves the trace; every other end of an instruction adds its entry (R38). -/
theorem ExecCase.trace_cases (h : ExecCase s i t) (hr : s.fsm = .running) :
    (t.fsm = .blocked ∧ t.trace = s.trace) ∨ (t.fsm ≠ .blocked ∧ t.trace = s.logged.trace) := by
  cases h with
  | suspend => exact .inl ⟨rfl, rfl⟩
  | trap _ _ _ hg => exact .inr ⟨nofun, hg.logged_trace⟩
  | store _ _ _ hg | consume _ _ _ _ _ _ hg | output _ _ hg | jump _ _ _ hg | adjust _ _ hg =>
    exact .inr ⟨by simp [hg.fsm_eq, hr], hg.logged_trace⟩
  | latchHalt | halt => exact .inr ⟨nofun, rfl⟩

/-- An instruction of a `Running` core that leaves it `Faulted` has done reads and fault entry, nothing else (R271). -/
theorem ExecCase.raised (h : ExecCase s i t) (hr : s.fsm = .running) (hf : t.fsm = .faulted) :
    ∃ g x, Grown s g ∧ t = g.raise x := by
  cases h with
  | trap _ g x hg => exact ⟨g, x, hg, rfl⟩
  | store _ _ _ hg | consume _ _ _ _ _ _ hg | output _ _ hg | jump _ _ _ hg | adjust _ _ hg =>
    simp [hg.fsm_eq, hr] at hf
  | suspend | latchHalt | halt => cases hf

/-! ## The step -/

/-- A step of a `Running` core does fault entry after some reads, or executes the instruction at `pc`. -/
theorem StepCase.raised_or_executed (h : StepCase s t) :
    (∃ g x, Grown s g ∧ t = g.raise x) ∨ ∃ i, s.holds i ∧ ExecCase (s.grow s.pc.toNat) i t := by
  cases h with
  | fetchTrap x => exact .inl ⟨s, x, .refl s, rfl⟩
  | decodeTrap c hm => exact .inl ⟨_, _, .grow hm, rfl⟩
  | execute i t hi _ hc => exact .inr ⟨i, hi, hc⟩

theorem StepCase.raised (h : StepCase s t) (hr : s.fsm = .running) (hf : t.fsm = .faulted) :
    ∃ g x, Grown s g ∧ t = g.raise x := by
  rcases h.raised_or_executed with hx | ⟨i, hi, hc⟩
  · exact hx
  · obtain ⟨g, x, hg, rfl⟩ := hc.raised hr hf
    exact ⟨g, x, (Grown.grow hi.1).trans hg, rfl⟩

theorem StepCase.mlen_le (h : StepCase s t) : s.mlen ≤ t.mlen := by
  rcases h.raised_or_executed with ⟨g, x, hg, rfl⟩ | ⟨i, hi, hc⟩
  · exact hg.mlen_le
  · exact (Grown.grow hi.1).mlen_le.trans hc.mlen_le

theorem StepCase.trace_cases (h : StepCase s t) (hr : s.fsm = .running) :
    (t.fsm = .blocked ∧ t.trace = s.trace) ∨ (t.fsm ≠ .blocked ∧ t.trace = s.logged.trace) := by
  rcases h.raised_or_executed with ⟨g, x, hg, rfl⟩ | ⟨i, -, hc⟩
  · exact .inr ⟨nofun, hg.logged_trace⟩
  · exact hc.trace_cases hr

/-- No host operation but `reset()` changes `mlen` (R54). -/
theorem HostCase.mlen_eq {o : HostOp} (h : HostCase s o t) (ho : o ≠ .reset) : t.mlen = s.mlen := by
  cases h with
  | reset => exact absurd rfl ho
  | push | pop | drain | start | noRun | observe => rfl

/-- No host operation but `reset()` touches a faulted core's record or status (R272, R273). -/
theorem HostCase.faulted {o : HostOp} (h : HostCase s o t) (ho : o ≠ .reset) (hf : s.fsm = .faulted) :
    t.fault = s.fault ∧ t.fsm = .faulted := by
  cases h with
  | reset => exact absurd rfl ho
  | start hs => simp [hf] at hs
  | push | pop | drain | noRun | observe => exact ⟨rfl, hf⟩

end Sys2Proof.Machine
end

-- The obligations about the pieces of state (10_state.md)
section
/-! SUPPORT. The obligations about hidden state, faults, the base, the store, the trace, the queues and shared FIFOs. -/

namespace Sys2Proof.Machine

/-- Settles O40: the core agrees with its copy under other hidden state, and cores that agree take the same step. -/
theorem hiddenStateDoesNotSteerTheStep : Obligations.HiddenStateDoesNotSteerTheStep := by
  intro s t mlen trace fault latch outq hr ho hs
  obtain ⟨t₁, t', h₁, h', h⟩ := step_agree (State.agree_hidden hr ho mlen trace fault latch outq) hr
  obtain rfl : t = t₁ := Host.Outcome.next.inj (hs.symm.trans h₁)
  exact ⟨t', h', h.pc, h.rb, h.mem, h.inq, h.fsm, h.params, h.fault, h.outq⟩

/-- Settles O34: the entry is empty where no word can be fetched, so only blocking is a case of its own. -/
theorem traceGainsOneEntryPerInstruction : Obligations.TraceGainsOneEntryPerInstruction := by
  intro s t hr hs
  rcases (StepCase.of_step hr hs).trace_cases hr with ⟨hb, ht⟩ | ⟨hb, ht⟩
  · rw [if_neg fun h => h.2 hb, ht]
  · by_cases hm : s.inMemory s.pc = true
    · rw [if_pos ⟨hm, hb⟩, ht, State.logged_trace, State.trace_append hm]
    · rw [if_neg fun h => hm h.1, ht, State.logged_trace, State.traceEntry_unfetched hm, List.append_nil]

/-- Settles O19: a step that ends in `Faulted` is reads and fault entry; its trace is that of O34. -/
theorem faultsArePrecise : Obligations.FaultsArePrecise := by
  intro s t hr hs hf
  have htrace := traceGainsOneEntryPerInstruction s t hr hs
  obtain ⟨g, x, hg, rfl⟩ := (StepCase.of_step hr hs).raised hr hf
  obtain ⟨n, hn, rfl, -⟩ := hg
  exact ⟨rfl, rfl, rfl, rfl, rfl, rfl, rfl, hn, ⟨_, rfl, rfl⟩, by simpa using htrace⟩

/-- Settles O30: fault entry keeps `rb`, and so does every instruction but ADJUST-BASE. -/
theorem onlyAdjustBaseChangesTheBase : Obligations.OnlyAdjustBaseChangesTheBase := by
  intro s t hs hne
  rcases step_idle_or_case hs with rfl | ⟨hr, hc⟩
  · exact absurd rfl hne
  rcases hc.raised_or_executed with ⟨g, x, hg, rfl⟩ | ⟨i, hi, he⟩
  · exact absurd hg.rb_eq hne
  obtain ⟨a, rfl, hrb⟩ := he.rb_cases.resolve_left hne
  exact ⟨a, hr, hi, hrb⟩

/-- Settles O32, by the cases of a step and of an accepted host operation. -/
theorem onlyResetShrinksTheStore : Obligations.OnlyResetShrinksTheStore := by
  refine ⟨fun s t hs => ?_, fun o s t ho h => (hostApply_accepted h).2.mlen_eq ho, fun s t h => ?_⟩
  · rcases step_idle_or_case hs with rfl | ⟨-, hc⟩
    · exact Nat.le_refl _
    · exact hc.mlen_le
  · cases (State.between_accepted h).2
    rfl

/-- Settles O35: only INPUT takes from the one queue, only OUTPUT adds to the other. -/
theorem stepMovesTheQueuesInOrder : Obligations.StepMovesTheQueuesInOrder := by
  intro s t hs
  rcases step_idle_or_case hs with rfl | ⟨-, hc⟩
  · exact ⟨.inl rfl, .inl ⟨rfl, rfl⟩⟩
  rcases hc.raised_or_executed with ⟨g, x, hg, rfl⟩ | ⟨i, hi, he⟩
  · exact ⟨.inl hg.inq_eq, .inl ⟨hg.outq_eq, hg.latch_eq⟩⟩
  constructor
  · rcases he.inq_cases with h | ⟨v, a, hq, rfl⟩
    · exact .inl h
    · exact .inr ⟨v, a, hq, hi⟩
  · rcases he.outq_cases with h | ⟨a, rfl, hout⟩
    · exact .inl h
    · exact .inr ⟨a, hi, hout⟩

/-- Settles O42, by `Memory.ext_load`: the two lists are compared head by head. -/
theorem memoryIsItsContents : Obligations.MemoryIsItsContents := fun _ _ => Memory.ext_load

/-- Settles O49: a core with a record is `Faulted`, so its step is idle, and a start leaves it as it is. -/
theorem faultRecordIsWrittenOnce : Obligations.FaultRecordIsWrittenOnce := by
  intro s t f hinv hf
  have hfsm : s.fsm = .faulted := hinv.fault_iff.1 (by rw [hf]; rfl)
  refine ⟨fun hs => ?_, fun o ho h => hf ▸ (hostApply_accepted h).2.faulted ho hfsm⟩
  rw [step_idle (by simp [hfsm]), Host.Outcome.next.injEq] at hs
  exact hs ▸ ⟨hf, hfsm⟩

/-- Settles O50: what is done is that core `k` is put back. -/
theorem coresShareOnlyTheirFifos : Obligations.CoresShareOnlyTheirFifos := by
  intro n n' st k fuel h
  obtain ⟨-, d, t, hd, -, rfl⟩ := Net.atCore_done h
  refine ⟨fun j hj => Net.putBack_node_ne n d t hj, fun e he f hi ho => ?_⟩
  obtain rfl : d = e := Option.some.inj (hd.symm.trans he)
  exact Net.putBack_fifo_ne n k t hi ho

/-- `reset()` of a core between runs puts it back with its reset values (R291). -/
theorem Net.resetCore_done {n : Net} {k : Nat} {d : Node} (hw : n.wired = true) (hd : n.nodes[k]? = some d)
    (hr : d.core.fsm ≠ .running) : n.resetCore k = .done (n.putBack k d (State.initial d.core.params)) := by
  have hv : (n.view d).fsm ≠ .running := hr
  rw [Net.resetCore, Net.atCore_wired hw hd, State.hostReset, State.between_idle _ hv]
  rfl

/-- Settles O57: the core is put back with empty queues, which are the contents of its two FIFOs. -/
theorem resetEmptiesSharedFifos : Obligations.ResetEmptiesSharedFifos := by
  intro n k d hw hd hr
  obtain ⟨hi, ho, hne, -⟩ := Net.wired_node hw (List.mem_of_getElem? hd)
  have hempty : ∀ f, f = d.inFifo ∨ f = d.outFifo → (n.putBack k d (State.initial d.core.params)).fifo f = [] := by
    rintro f (rfl | rfl)
    · exact Net.putBack_fifo_in n k _ hi hne
    · exact Net.putBack_fifo_out n k _ ho
  exact ⟨_, Net.resetCore_done hw hd hr, fun e _ => ⟨hempty _, hempty _⟩, fun j hj => Net.putBack_node_ne n d _ hj,
    fun f => Net.putBack_fifo_ne n k _⟩

/-- Settles O28: it is the state after construction with R4's defaults, the empty image and no seed. -/
theorem resetStateMeetsTheInvariant : Obligations.ResetStateMeetsTheInvariant :=
  State.initial_inv (p := {}) (q := []) (by simp) (by simp) rfl (by simp) rfl

end Sys2Proof.Machine
end

-- Memory, the fetch of operand words, and stored words (20_memory.md)
section
/-! SUPPORT. What the obligations about memory need: a well-formed instruction decodes from its word, an ADD whose operands resolve
stores its sum, and the operand fetch stops at the first word that is not in memory. -/

namespace Sys2Proof

/-! ## The word of a well-formed instruction decodes to it -/

/-- The digits of every instruction's word, from the lemma of its constructor. -/
theorem Instr.wordDigits : ∀ i : Instr, Laws.WordDigits.Statement i
  | .add a b c => Laws.WordDigits.add a b c
  | .mul a b c => Laws.WordDigits.mul a b c
  | .input a => Laws.WordDigits.input a
  | .output a => Laws.WordDigits.output a
  | .jumpIfTrue a b => Laws.WordDigits.jumpIfTrue a b
  | .jumpIfFalse a b => Laws.WordDigits.jumpIfFalse a b
  | .lessThan a b c => Laws.WordDigits.lessThan a b c
  | .equals a b c => Laws.WordDigits.equals a b c
  | .adjustBase a => Laws.WordDigits.adjustBase a
  | .halt => Laws.WordDigits.halt

section
variable {n : Nat} {i : Instr} (h1 : modeDigit n 1 = i.modeDigits.1) (h2 : modeDigit n 2 = i.modeDigits.2.1)
  (h3 : modeDigit n 3 = i.modeDigits.2.2)
include h1 h2 h3

/-- The digit of an operand that the instruction does not have is 0 (R91). -/
theorem Instr.reservedDigitSet_false (h0 : n / 100000 = 0) : reservedDigitSet i.opcode.format n = false := by
  simp only [reservedDigitSet, h0, List.any_cons, List.any_nil, h1, h2, h3]
  cases i <;> rfl

/-- No digit of an instruction's word is above 2 (R89). -/
theorem Instr.illegalModeSet_false : illegalModeSet i.opcode.format n = false := by
  have hle : i.modeDigits.1 ≤ 2 ∧ i.modeDigits.2.1 ≤ 2 ∧ i.modeDigits.2.2 ≤ 2 := by
    cases i <;> simp [Instr.modeDigits, Mode.digit_le]
  simp [illegalModeSet, h1, h2, h3, hle]

/-- The write operand of a well-formed instruction does not carry digit 1 (R90). -/
theorem Instr.immediateTargetSet_false (hw : i.wellFormed = true) : immediateTargetSet i.opcode.format n = false := by
  cases i with
  | add _ _ m | mul _ _ m | lessThan _ _ m | equals _ _ m =>
    exact beq_eq_false_iff_ne.2 (h3 ▸ m.writable_iff.1 hw)
  | input m => exact beq_eq_false_iff_ne.2 (h1 ▸ m.writable_iff.1 hw)
  | output _ | jumpIfTrue _ _ | jumpIfFalse _ _ | adjustBase _ | halt => rfl

/-- An instruction is put together from its operation and the modes its digits name. -/
theorem Instr.instrOf_modeDigits :
    instrOf i.opcode (modeOf (modeDigit n 1)) (modeOf (modeDigit n 2)) (modeOf (modeDigit n 3)) = i := by
  rw [h1, h2, h3]
  cases i <;> simp [instrOf, Instr.opcode, Instr.modeDigits]

end

/-- The decoder reads a well-formed instruction from its own word (R93, R96). -/
theorem decode_encode {i : Instr} (hw : i.wellFormed = true) : decode (encode i) = .instr i := by
  obtain ⟨n, hn, h0, hop, h1, h2, h3⟩ := i.wordDigits
  have hfields : decodeNat n = decodeFields i.opcode n := by
    rw [decodeNat, opcodeOf_eq_some.2 hop]
  rw [decode, hn, if_neg (by omega), Int.toNat_natCast, hfields, decodeFields,
    Instr.reservedDigitSet_false h1 h2 h3 h0, Instr.illegalModeSet_false h1 h2 h3,
    Instr.immediateTargetSet_false h1 h2 h3 hw, Instr.instrOf_modeDigits h1 h2 h3]
  rfl

end Sys2Proof

namespace Sys2Proof.Machine

variable {s : State} {a b c : Mode}

/-! ## A store whose operands resolve -/

/-- The target of a write operand that resolves is in memory (R118). -/
theorem State.inMemory_target {m : Mode} {raw : Int} (h : s.addressable m raw = true) (hw : m.writable = true) :
    s.inMemory (s.target m raw : Int) = true := by
  have hin : ∀ x, s.inMemory x = true → s.inMemory (x.toNat : Int) = true := fun x hx => by
    rwa [Int.toNat_of_nonneg (State.inMemory_nonneg hx)]
  cases m with
  | position => exact hin _ h
  | immediate => exact absurd hw (by decide)
  | relative => exact hin _ (Bool.and_eq_true_iff.1 h).2

/-- An ADD whose operands resolve stores the exact sum and retires (R150). -/
theorem exec_add_stores {v : Int} (h : s.resolvesRRW a b c) (hp : s.fits (s.pc + 4) = true)
    (hsum : s.value a (s.operandWord 1) + s.value b (s.operandWord 2) = v) (hv : s.fits v = true) :
    exec (.add a b c) s = .next (s.afterStore a b c v) := by
  subst hsum
  obtain ⟨hf, ha, hb, hc, hw⟩ := h
  rw [exec, execAdd, operandsRRW_ok hf ha hb hc hw]
  exact commitStore_grown _ _ _ (State.fetchable_pc hf) hv hp

/-- A store of the word of `i` into the cell right after the instruction leaves `i` as the next one (R65). -/
theorem State.afterStore_holds {i : Instr} (hwf : s.mem.wf = true) (h : s.resolvesRRW a b c)
    (ht : (s.target c (s.operandWord 3) : Int) = s.pc + 4) (hi : i.wellFormed = true) :
    (s.afterStore a b c (encode i)).holds i := by
  obtain ⟨-, -, -, hc, hw⟩ := h
  have hmem : s.inMemory (s.pc + 4) = true := ht ▸ State.inMemory_target hc hw
  have hcell : (s.pc + 4).toNat = s.target c (s.operandWord 3) := by
    rw [← ht, Int.toNat_natCast]
  have hword : (s.mem.store (s.target c (s.operandWord 3)) (encode i)).load (s.pc + 4).toNat = encode i :=
    (Memory.load_store hwf _ _ _).trans (if_pos hcell)
  exact ⟨hmem, (congrArg decode hword).trans (decode_encode hi)⟩

/-! ## The operand fetch stops at the first word beyond memory -/

/-- The trap of fetching operand word `k + 1` beyond `MEM_CAP` (R68, R258). -/
def State.operandTrap (s : State) (k : Nat) : Trap where
  cause := .resourceLimit
  addr  := some (s.pc + (k + 1 : Nat))

variable {k n : Nat}

theorem State.operandAddrs_succ (s : State) (k : Nat) :
    s.operandAddrs (k + 1) = s.operandAddrs k ++ [(s.pc + (k + 1 : Nat)).toNat] := by
  simp [State.operandAddrs, List.range_succ]

section
variable {β : Type} (f : Int → State → Reply β)

/-- The words before the one beyond memory are fetched one after the other (R134). -/
theorem fetchOperand_next (hf : s.fetchable n = true) (hk : k < n) :
    (fetchOperand (k + 1) (s.grown (s.operandAddrs k))).andThen f =
      f (s.operandWord (k + 1)) (s.grown (s.operandAddrs (k + 1))) := by
  rw [fetchOperand_ok hf hk, ← State.operandAddrs_succ]
  rfl

/-- The word beyond memory traps, and no later phase is entered. -/
theorem fetchOperand_beyond (hf : s.fetchable k = true) (hb : s.params.below (s.pc + (k + 1 : Nat)) = false) :
    (fetchOperand (k + 1) (s.grown (s.operandAddrs k))).andThen f =
      .trap (s.operandTrap k) (s.grown (s.operandAddrs k)) := by
  have hpc := State.inMemory_nonneg (State.fetchable_pc hf)
  have ht : (s.grown (s.operandAddrs k)).addrTrap (s.pc + (k + 1 : Nat)) = some (s.operandTrap k) :=
    State.addrTrap_beyond (by omega) hb
  exact congrArg (Reply.andThen · f) (memRead_trap ht)

end

section
variable (hf : s.fetchable k = true) (hb : s.params.below (s.pc + (k + 1 : Nat)) = false)
include hf hb

theorem operandsRRW_beyond (hk : k < 3) (a b c : Mode) :
    operandsRRW a b c s = .trap (s.operandTrap k) (s.grown (s.operandAddrs k)) := by
  match k, hk with
  | 0, _ => exact fetchOperand_beyond _ hf hb
  | 1, _ => exact (fetchOperand_next (k := 0) _ hf (by omega)).trans (fetchOperand_beyond _ hf hb)
  | 2, _ =>
    exact (fetchOperand_next (k := 0) _ hf (by omega)).trans <|
      (fetchOperand_next (k := 1) _ hf (by omega)).trans (fetchOperand_beyond _ hf hb)

theorem operandsRR_beyond (hk : k < 2) (a b : Mode) :
    operandsRR a b s = .trap (s.operandTrap k) (s.grown (s.operandAddrs k)) := by
  match k, hk with
  | 0, _ => exact fetchOperand_beyond _ hf hb
  | 1, _ => exact (fetchOperand_next (k := 0) _ hf (by omega)).trans (fetchOperand_beyond _ hf hb)

theorem operandsR_beyond (hk : k < 1) (a : Mode) :
    operandsR a s = .trap (s.operandTrap k) (s.grown (s.operandAddrs k)) := by
  obtain rfl := Nat.lt_one_iff.1 hk
  exact fetchOperand_beyond _ hf hb

theorem operandsW_beyond (hk : k < 1) (a : Mode) :
    operandsW a s = .trap (s.operandTrap k) (s.grown (s.operandAddrs k)) := by
  obtain rfl := Nat.lt_one_iff.1 hk
  exact fetchOperand_beyond _ hf hb

end

end Sys2Proof.Machine
end

-- The obligations about memory (20_memory.md)
section
/-! SUPPORT. The obligations about memory, from the lemmas above and the memory laws. -/

namespace Sys2Proof.Machine

/-- Settles O43: the ADD leaves the word of `i` at its new `pc`, and the step there fetches it and runs `i`. -/
theorem storedWordIsTheNextInstruction : Obligations.StoredWordIsTheNextInstruction := by
  intro s a b c i hwf hr hadd hres htarget hpc hfits hw hsum
  have hstep : step s = .next ((s.grow s.pc.toNat).afterStore a b c (encode i)) := by
    rw [step_of_holds hr hadd]
    exact exec_add_stores (s := s.grow s.pc.toNat) hres hpc hsum hfits
  exact ⟨_, hstep, rfl, step_of_holds hr (State.afterStore_holds (s := s.grow s.pc.toNat) hwf hres htarget hw)⟩

/-- Settles O53, by the format: the fetch of the operand words traps before anything else, and the trap is fault entry. -/
theorem operandWordBeyondMemoryFaults : Obligations.OperandWordBeyondMemoryFaults := by
  intro s i k hk hf hb hinput
  have faults {α : Type} {r : Reply α} {commit : α → State → Result}
      (hr : r = .trap (s.operandTrap k) (s.grown (s.operandAddrs k))) :
      r.finish commit = .next (s.afterFault .resourceLimit (some (s.pc + (k + 1 : Nat))) (s.operandAddrs k)) :=
    hr ▸ finish_trap (State.fetchable_pc hf)
  cases i with
  | add a b c | mul a b c | lessThan a b c | equals a b c => exact faults (operandsRRW_beyond hf hb hk a b c)
  | jumpIfTrue a b | jumpIfFalse a b => exact faults (operandsRR_beyond hf hb hk a b)
  | output a | adjustBase a => exact faults (operandsR_beyond hf hb hk a)
  | input a =>
    obtain ⟨hp, hq⟩ := hinput a rfl
    obtain ⟨v, rest, hv⟩ := List.exists_cons_of_ne_nil hq
    rw [exec_input_consumes hp hv]
    exact faults (operandsW_beyond hf hb hk a)
  | halt => exact absurd hk (Nat.not_lt_zero k)

/-- Settles O41, by the two memory laws of a store. -/
theorem readAfterWriteInMemory : Obligations.ReadAfterWriteInMemory := fun _ a b v h =>
  ⟨Memory.load_store h a v b, Memory.wf_store h a v⟩

end Sys2Proof.Machine
end

-- The decoder read backwards, the legal words and the order of the checks (30_encoding.md)
section
/-! SUPPORT. What the obligations about the encoding need: each of R93's checks as a proposition, the instruction that `Decode`
answers when all of them pass, the list of the well-formed instructions, and the digits of a word by the formula of R82. -/

namespace Sys2Proof

/-! ## The checks of R93 -/

section
variable {f : Format} {o : Opcode} {n : Nat}

theorem reservedDigitSet_iff :
    reservedDigitSet f n = true ↔ n / 100000 ≠ 0 ∨ ∃ k ∈ [1, 2, 3], f.operands < k ∧ modeDigit n k ≠ 0 := by
  simp [reservedDigitSet]

theorem illegalModeSet_iff : illegalModeSet f n = true ↔ ∃ k ∈ [1, 2, 3], k ≤ f.operands ∧ 2 < modeDigit n k := by
  simp [illegalModeSet]

theorem immediateTargetSet_iff :
    immediateTargetSet f n = true ↔ (f = .rrw ∧ modeDigit n 3 = 1) ∨ (f = .w ∧ modeDigit n 1 = 1) := by
  cases f <;> simp [immediateTargetSet, Format.writeOperand]

/-- A word without reserved digits is below 100000 (R91). -/
theorem div_eq_zero_of_reservedDigitSet (h : reservedDigitSet f n = false) : n / 100000 = 0 :=
  not_not.1 fun h0 => Bool.eq_false_iff.1 h (reservedDigitSet_iff.2 (.inl h0))

/-- Once the reserved digits and the mode digits are checked, the digit of each of the three operands names a mode, and is 0
where the format has no such operand (R89, R91). -/
theorem modeDigit_checked (hr : reservedDigitSet f n = false) (hi : illegalModeSet f n = false) {k : Nat}
    (hk : k ∈ [1, 2, 3]) : modeDigit n k ≤ 2 ∧ (f.operands < k → modeDigit n k = 0) := by
  have hzero : f.operands < k → modeDigit n k = 0 := fun hf =>
    not_not.1 fun h0 => Bool.eq_false_iff.1 hr (reservedDigitSet_iff.2 (.inr ⟨k, hk, hf, h0⟩))
  refine ⟨?_, hzero⟩
  by_cases hf : k ≤ f.operands
  · exact not_lt.1 fun h2 => Bool.eq_false_iff.1 hi (illegalModeSet_iff.2 ⟨k, hk, hf, h2⟩)
  · rw [hzero (not_le.1 hf)]
    exact Nat.zero_le 2

/-- All checks of R93 pass exactly when a word with a known opcode decodes. -/
theorem decodeFields_eq_instr {i : Instr} : decodeFields o n = .instr i ↔
    reservedDigitSet o.format n = false ∧ illegalModeSet o.format n = false ∧ immediateTargetSet o.format n = false ∧
      instrOf o (modeOf (modeDigit n 1)) (modeOf (modeDigit n 2)) (modeOf (modeDigit n 3)) = i := by
  unfold decodeFields
  split_ifs <;> simp [*]

end

/-! ## The instruction a word decodes to -/

@[simp] theorem instrOf_opcode (o : Opcode) (a b c : Mode) : (instrOf o a b c).opcode = o := by cases o <;> rfl

/-- The mode digits of an instruction that is put together from digits of modes, 0 where the operation has no operand. -/
theorem instrOf_modeOf_modeDigits {o : Opcode} {a b c : Nat} (ha : a ≤ 2 ∧ (o.format.operands < 1 → a = 0))
    (hb : b ≤ 2 ∧ (o.format.operands < 2 → b = 0)) (hc : c ≤ 2 ∧ (o.format.operands < 3 → c = 0)) :
    (instrOf o (modeOf a) (modeOf b) (modeOf c)).modeDigits = (a, b, c) := by
  obtain ⟨ha2, ha0⟩ := ha
  obtain ⟨hb2, hb0⟩ := hb
  obtain ⟨hc2, hc0⟩ := hc
  cases o with
  | add | mul | lessThan | equals =>
    simp [instrOf, Instr.modeDigits, Mode.digit_modeOf ha2, Mode.digit_modeOf hb2, Mode.digit_modeOf hc2]
  | jumpIfTrue | jumpIfFalse =>
    simp [instrOf, Instr.modeDigits, Mode.digit_modeOf ha2, Mode.digit_modeOf hb2, hc0 (by decide)]
  | input | output | adjustBase =>
    simp [instrOf, Instr.modeDigits, Mode.digit_modeOf ha2, hb0 (by decide), hc0 (by decide)]
  | halt => simp [instrOf, Instr.modeDigits, ha0 (by decide), hb0 (by decide), hc0 (by decide)]

/-- A mode digit names a writable mode exactly when it is not 1 (R90). -/
theorem modeOf_writable {d : Nat} (h : d ≤ 2) : (modeOf d).writable = true ↔ d ≠ 1 := by
  rw [Mode.writable_iff, Mode.digit_modeOf h]

/-- Put together from digits of modes, an instruction whose write operand does not carry digit 1 is well formed (R90). -/
theorem instrOf_modeOf_wellFormed {o : Opcode} {n : Nat} (h1 : modeDigit n 1 ≤ 2) (h3 : modeDigit n 3 ≤ 2)
    (ht : immediateTargetSet o.format n = false) :
    (instrOf o (modeOf (modeDigit n 1)) (modeOf (modeDigit n 2)) (modeOf (modeDigit n 3))).wellFormed = true := by
  have ht := Bool.eq_false_iff.1 ht
  cases o with
  | add | mul | lessThan | equals =>
    exact (modeOf_writable h3).2 fun h => ht (immediateTargetSet_iff.2 (.inl ⟨rfl, h⟩))
  | input => exact (modeOf_writable h1).2 fun h => ht (immediateTargetSet_iff.2 (.inr ⟨rfl, h⟩))
  | output | jumpIfTrue | jumpIfFalse | adjustBase | halt => rfl

/-- What `Decode` answers carries the opcode and the mode digits of the word and is well formed, and the word has no digit
above them (R93). -/
theorem decodeFields_sound {o : Opcode} {n : Nat} {i : Instr} (h : decodeFields o n = .instr i) :
    n / 100000 = 0 ∧ i.opcode = o ∧ i.modeDigits = (modeDigit n 1, modeDigit n 2, modeDigit n 3) ∧ i.wellFormed = true := by
  obtain ⟨hr, hi, ht, rfl⟩ := decodeFields_eq_instr.1 h
  have h1 := modeDigit_checked hr hi (k := 1) (by simp)
  have h2 := modeDigit_checked hr hi (k := 2) (by simp)
  have h3 := modeDigit_checked hr hi (k := 3) (by simp)
  exact ⟨div_eq_zero_of_reservedDigitSet hr, instrOf_opcode .., instrOf_modeOf_modeDigits h1 h2 h3,
    instrOf_modeOf_wellFormed h1.1 h3.1 ht⟩

/-- A word whose two low digits are an opcode goes to the checks of its digits (R93). -/
theorem decode_natCast {o : Opcode} {n : Nat} (ho : digs n 1 0 = o.number) : decode (n : Int) = decodeFields o n := by
  simp [decode, decodeNat, opcodeOf_eq_some.2 ho]

/-- A word whose two low digits are no opcode does not decode (R88). -/
theorem decode_unknown {n : Nat} (h : ∀ o : Opcode, digs n 1 0 ≠ o.number) : decode (n : Int) = .illegal .unknownOpcode := by
  have hnone : opcodeOf (digs n 1 0) = none := Option.eq_none_iff_forall_ne_some.2 fun o ho => h o (opcodeOf_eq_some.1 ho)
  simp [decode, decodeNat, hnone]

/-- A word decodes only if it is not negative and its two low digits are an opcode (R84, R88). -/
theorem exists_decodeFields_of_decode {w : Int} {i : Instr} (h : decode w = .instr i) :
    ∃ (n : Nat) (o : Opcode), w = n ∧ digs n 1 0 = o.number ∧ decodeFields o n = .instr i := by
  by_cases hw : w < 0
  · simp [decode, hw] at h
  lift w to Nat using not_lt.1 hw with n
  by_cases ho : ∃ o : Opcode, digs n 1 0 = o.number
  · obtain ⟨o, ho⟩ := ho
    exact ⟨n, o, rfl, ho, (decode_natCast ho).symm.trans h⟩
  · simp [decode_unknown (not_exists.1 ho)] at h

/-- An instruction a word decodes to is well formed and has that word (R93, R96). -/
theorem encode_of_decode {w : Int} {i : Instr} (h : decode w = .instr i) : i.wellFormed = true ∧ encode i = w := by
  obtain ⟨n, o, rfl, ho, hd⟩ := exists_decodeFields_of_decode h
  obtain ⟨h0, rfl, hm, hw⟩ := decodeFields_sound hd
  refine ⟨hw, ?_⟩
  rw [encode, hm, ← ho, ← sum_of_digits h0]

/-! ## The list of the well-formed instructions -/

/-- The three modes, by digit. -/
def Mode.all : List Mode := [.position, .immediate, .relative]

/-- The modes of a write operand, by digit (R85). -/
def Mode.targets : List Mode := [.position, .relative]

@[simp] theorem Mode.mem_all (m : Mode) : m ∈ Mode.all := by cases m <;> decide

@[simp] theorem Mode.mem_targets {m : Mode} : m ∈ Mode.targets ↔ m.writable = true := by cases m <;> decide

/-- The well-formed instructions, family by family in the order of R94. -/
def wellFormedInstrs : List Instr :=
  ([Instr.add, .mul, .lessThan, .equals].flatMap fun f => Mode.all.flatMap fun a => Mode.all.flatMap fun b =>
    Mode.targets.map fun c => f a b c) ++
  ([Instr.jumpIfTrue, .jumpIfFalse].flatMap fun f => Mode.all.flatMap fun a => Mode.all.map fun b => f a b) ++
  Mode.targets.map .input ++ ([Instr.output, .adjustBase].flatMap fun f => Mode.all.map f) ++ [.halt]

theorem mem_wellFormedInstrs {i : Instr} : i ∈ wellFormedInstrs ↔ i.wellFormed = true := by
  cases i <;> simp [wellFormedInstrs, Instr.wellFormed]

/-- R94's list is the words of the well-formed instructions, in the same order. -/
theorem legalWords_eq_map_encode : Claims.legalWords = wellFormedInstrs.map encode := by decide

theorem mem_legalWords {w : Int} : w ∈ Claims.legalWords ↔ ∃ i, decode w = .instr i := by
  rw [legalWords_eq_map_encode, List.mem_map]
  constructor
  · rintro ⟨i, hi, rfl⟩
    exact ⟨i, decode_encode (mem_wellFormedInstrs.1 hi)⟩
  · rintro ⟨i, h⟩
    obtain ⟨hw, he⟩ := encode_of_decode h
    exact ⟨i, mem_wellFormedInstrs.2 hw, he⟩

/-! ## The digits of a word, by the formula of R82 -/

theorem emod_hundred_natCast (n : Nat) : (n : Int) % 100 = (digs n 1 0 : Nat) := by
  simp [digs]

@[simp] theorem modeField_natCast (n k : Nat) : Claims.modeField n k = (modeDigit n k : Nat) := by
  simp [Claims.modeField, modeDigit, dig]

/-- The ten operations, in the order of R86. -/
def Opcode.all : List Opcode :=
  [.add, .mul, .input, .output, .jumpIfTrue, .jumpIfFalse, .lessThan, .equals, .adjustBase, .halt]

@[simp] theorem Opcode.mem_all (o : Opcode) : o ∈ Opcode.all := by cases o <;> decide

/-- R93's list of opcodes is the numbers of the ten operations. -/
theorem natCast_mem_opcodes {d : Nat} :
    (d : Int) ∈ [1, 2, 3, 4, 5, 6, 7, 8, 9, 99] ↔ ∃ o : Opcode, d = o.number := by
  have hmap : ([1, 2, 3, 4, 5, 6, 7, 8, 9, 99] : List Int) = Opcode.all.map fun o => (o.number : Int) := rfl
  simp [hmap, eq_comm]

@[simp] theorem operandCount_number (o : Opcode) : Claims.operandCount o.number = o.format.operands := by
  cases o <;> decide

theorem Opcode.number_mem_rrw {o : Opcode} : (o.number : Int) ∈ [1, 2, 7, 8] ↔ o.format = .rrw := by
  cases o <;> decide

theorem Opcode.number_eq_input {o : Opcode} : (o.number : Int) = 3 ↔ o.format = .w := by cases o <;> decide

section
variable {o : Opcode} {n : Nat}

theorem reservedDigitSet_iff_fields :
    ((n : Int) / 100000 ≠ 0 ∨ ∃ k ∈ [1, 2, 3], Claims.operandCount o.number < k ∧ Claims.modeField n k ≠ 0) ↔
      reservedDigitSet o.format n = true := by
  rw [reservedDigitSet_iff]
  simp only [operandCount_number, modeField_natCast]
  norm_cast

theorem illegalModeSet_iff_fields :
    (∃ k ∈ [1, 2, 3], k ≤ Claims.operandCount o.number ∧ 2 < Claims.modeField n k) ↔
      illegalModeSet o.format n = true := by
  rw [illegalModeSet_iff]
  simp only [operandCount_number, modeField_natCast]
  norm_cast

theorem immediateTargetSet_iff_fields :
    ((o.number : Int) ∈ [1, 2, 7, 8] ∧ Claims.modeField n 3 = 1 ∨ (o.number : Int) = 3 ∧ Claims.modeField n 1 = 1) ↔
      immediateTargetSet o.format n = true := by
  rw [immediateTargetSet_iff]
  simp only [Opcode.number_mem_rrw, Opcode.number_eq_input, modeField_natCast]
  norm_cast

end

end Sys2Proof
end

-- The obligations about the encoding (30_encoding.md)
section
/-! SUPPORT. The obligations about the decoder and the encoder, from the lemmas above. -/

namespace Sys2Proof

/-- Settles O2: the decoder reads a well-formed instruction from its word, and nothing else decodes to it. -/
theorem decodeAndEncodeAgree : Obligations.DecodeAndEncodeAgree := by
  intro w i
  constructor
  · exact encode_of_decode
  · rintro ⟨hw, rfl⟩
    exact decode_encode hw

/-- Settles O3: R94's list is the words of the well-formed instructions. -/
theorem exactlyNinetyNineLegalWords : Obligations.ExactlyNinetyNineLegalWords :=
  ⟨by decide, by decide, fun _ => mem_legalWords⟩

/-- Settles O4: each condition of the statement is the decoder's own check, read through the formula of R82. -/
theorem decodeMakesItsChecksInOrder : Obligations.DecodeMakesItsChecksInOrder := by
  intro w
  by_cases hneg : w < 0
  · simp [hneg, decode]
  lift w to Nat using not_lt.1 hneg with n
  rw [if_neg hneg, emod_hundred_natCast]
  by_cases hop : ∃ o : Opcode, digs n 1 0 = o.number
  · obtain ⟨o, ho⟩ := hop
    rw [if_neg (not_not.2 (natCast_mem_opcodes.2 ⟨o, ho⟩)), decode_natCast ho, ho]
    simp only [reservedDigitSet_iff_fields, illegalModeSet_iff_fields, immediateTargetSet_iff_fields]
    split_ifs with hr hi ht
    · simp [decodeFields, hr]
    · simp [decodeFields, hr, hi]
    · simp [decodeFields, hr, hi, ht]
    · have hd := decodeFields_eq_instr.2 ⟨by simpa using hr, by simpa using hi, by simpa using ht, rfl⟩
      obtain ⟨_, hopcode, hdigits, _⟩ := decodeFields_sound hd
      exact ⟨_, hd, by simp [hopcode, hdigits]⟩
  · rw [if_pos fun h => hop (natCast_mem_opcodes.1 h)]
    exact decode_unknown (not_exists.1 hop)

/-- Settles O1: each word is evaluated by the decoder. -/
theorem specExampleWordsDecode : Obligations.SpecExampleWordsDecode := by
  unfold Obligations.SpecExampleWordsDecode
  decide

end Sys2Proof
end

-- The base along steps and host operations (40_operand_resolver.md)
section
/-! SUPPORT. How `rb` moves along a sequence of events: a step adds its `baseDelta`, a host operation that is no reset adds
nothing, so a sequence adds the sum of its deltas (R120). -/

namespace Sys2Proof.Machine

open Sys2Proof.Claims

variable {s t : State} {a : Mode}

/-! ## One step -/

/-- Only an ADJUST-BASE has a delta (R200). -/
theorem baseDelta_eq_zero (h : ∀ a, s.fsm = .running → ¬ s.holds (.adjustBase a)) : baseDelta s = 0 := by
  unfold baseDelta
  split
  · next w t hr hw hs =>
    split
    · next a hd =>
      cases ht : s.addrTrap s.pc with
      | some x => simp [State.instrWord, ht] at hw
      | none =>
        have hm := State.addrTrap_none.1 ht
        obtain rfl : s.mem.load s.pc.toNat = w := by simpa [State.instrWord_eq hm] using hw
        exact absurd ⟨hm, hd⟩ (h a hr)
    · rfl
  · rfl

/-- The delta of an ADJUST-BASE is its operand's value, unless the step faults (R200, R271). -/
theorem baseDelta_adjustBase (hr : s.fsm = .running) (hi : s.holds (.adjustBase a)) (hs : step s = .next t) :
    baseDelta s = if t.fsm = .faulted then 0 else s.value a (s.operandWord 1) := by
  simp [baseDelta, hr, State.instrWord_eq hi.1, hs, hi.2]

/-- An ADJUST-BASE adds its operand's value to `rb`, unless it faults (R200, R271). -/
theorem ExecCase.adjustBase_rb (h : ExecCase s (.adjustBase a) t) (hr : s.fsm = .running) :
    t.rb = s.rb + if t.fsm = .faulted then 0 else s.value a (s.operandWord 1) := by
  cases h with
  | trap _ g x hg => simp [hg.rb_eq]
  | adjust _ g hg => simp [hg.fsm_eq, hr]
  | store _ _ hi | jump _ _ hi => cases hi

/-- A step adds its delta to `rb`. -/
theorem step_rb (hs : step s = .next t) : t.rb = s.rb + baseDelta s := by
  by_cases h : ∃ a, s.fsm = .running ∧ s.holds (.adjustBase a)
  · obtain ⟨a, hr, hi⟩ := h
    have he : exec (.adjustBase a) (s.grow s.pc.toNat) = .next t := (step_of_holds hr hi).symm.trans hs
    rw [baseDelta_adjustBase hr hi hs]
    exact (ExecCase.of_exec he).adjustBase_rb hr
  · have hrb : t.rb = s.rb := by
      by_contra hne
      obtain ⟨a, hr, hi, -⟩ := onlyAdjustBaseChangesTheBase s t hs hne
      exact h ⟨a, hr, hi⟩
    rw [hrb, baseDelta_eq_zero fun a hr hi => h ⟨a, hr, hi⟩, Int.add_zero]

/-! ## A sequence of events -/

/-- No host operation but `reset()` changes `rb` (R221 to R224). -/
theorem HostCase.rb_eq {o : HostOp} (h : HostCase s o t) (ho : o ≠ .reset) : t.rb = s.rb := by
  cases h with
  | reset => exact absurd rfl ho
  | push | pop | drain | start | noRun | observe => rfl

/-- An event that is no reset adds its delta to `rb`. -/
theorem event_apply_rb {e : Event} (he : e ≠ .host .reset) (h : e.apply s = some t) :
    t.rb = s.rb + if e = .step then baseDelta s else 0 := by
  cases e with
  | step =>
    cases hs : step s with
    | next u =>
      obtain rfl : u = t := by simpa [Event.apply, hs] using h
      exact step_rb hs
    | fault r => cases r
    | refused r => simp [Event.apply, hs] at h
  | host o =>
    cases ha : hostApply o s with
    | accepted u =>
      obtain rfl : u = t := by simpa [Event.apply, ha] using h
      simp [(hostApply_accepted ha).2.rb_eq (mt (congrArg Event.host) he)]
    | refused r => simp [Event.apply, ha] at h

/-- A sequence of events without a reset adds the sum of its deltas to `rb`. -/
theorem drive_rb {es : List Event} (hes : .host .reset ∉ es) (h : drive es s = some t) : t.rb = s.rb + deltas es s := by
  induction es generalizing s with
  | nil =>
    cases h
    exact (Int.add_zero _).symm
  | cons e es ih =>
    obtain ⟨he, hes⟩ := not_or.1 (mt List.mem_cons.2 hes)
    obtain ⟨u, hu, hd⟩ := Option.bind_eq_some_iff.1 h
    rw [ih hes hd, event_apply_rb (Ne.symm he) hu, deltas, hu, Int.add_assoc]
    rfl

end Sys2Proof.Machine
end

-- The obligations about the operand resolver (40_operand_resolver.md)
section
/-! SUPPORT. The obligations about negative operand addresses and relative operands, from the lemmas above. -/

namespace Sys2Proof.Machine

/-- Settles O18: a negative operand traps when it is resolved, and everything before it has resolved. -/
theorem firstNegativeOperandFaults : Obligations.FirstNegativeOperandFaults := by
  intro s a b c x
  refine ⟨fun hf i hi => ?_, fun hf i hi => ?_, fun hf i hi ha => ?_⟩
  · obtain ⟨f, hx⟩ := exec_storing hi
    rw [hx]
    refine ⟨fun ha => ?_, fun ha hb => ?_, fun ha hb hc => ?_⟩
    · rw [operandsRRW_trap_first hf (resolveRead_negative ha)]
      exact finish_trap (State.fetchable_pc hf)
    · rw [operandsRRW_trap_second hf ha (resolveRead_negative hb)]
      exact finish_trap (State.fetchable_pc hf)
    · rw [operandsRRW_trap_target hf ha hb (resolveWrite_negative hc)]
      exact finish_trap (State.fetchable_pc hf)
  · obtain ⟨f, hx⟩ := exec_jumping hi
    rw [hx]
    refine ⟨fun ha => ?_, fun ha hb => ?_⟩
    · rw [operandsRR_trap_first hf (resolveRead_negative ha)]
      exact finish_trap (State.fetchable_pc hf)
    · rw [operandsRR_trap_second hf ha (resolveRead_negative hb)]
      exact finish_trap (State.fetchable_pc hf)
  · obtain ⟨k, hx⟩ := exec_reading hi
    rw [hx, operandsR_trap hf (resolveRead_negative ha)]
    exact finish_trap (State.fetchable_pc hf)

/-- Settles O31: along the events `rb` has become the sum of the deltas, and a relative operand resolves to the cell at `rb`
plus its raw word. -/
theorem relativeOperandsUseTheSumOfDeltas : Obligations.RelativeOperandsUseTheSumOfDeltas := by
  refine ⟨fun s t h => ?_, fun es s t r hes h0 hd ha => ?_⟩
  · cases (State.between_accepted h).2
    rfl
  · have hrb : t.rb = Claims.deltas es s := by rw [drive_rb hes hd, h0, Int.zero_add]
    rw [← hrb]
    exact ⟨resolveRead_ok ha [], resolveWrite_ok ha rfl []⟩

end Sys2Proof.Machine
end

-- Where the dispatch FSM goes, and what the instructions leave unchanged (41_dispatch_step.md)
section
/-! SUPPORT. A step whose word is illegal, the memory and the FSM after an instruction, and the FSM under host operations. -/

namespace Sys2Proof.Machine

variable {s g t : State} {i : Instr} {a b c : Mode}

/-! ## Reads -/

theorem Grown.pc_eq (h : Grown s g) : g.pc = s.pc := by
  obtain ⟨n, -, rfl, -⟩ := h
  rfl

theorem Grown.mem_eq (h : Grown s g) : g.mem = s.mem := by
  obtain ⟨n, -, rfl, -⟩ := h
  rfl

/-! ## Executing an instruction -/

/-- A store leaves every cell but its own as it was (R53), also after reads. -/
theorem Grown.stored_load (h : Grown s g) (hwf : s.mem.wf = true) {x y : Nat} (hx : x ≠ y) (v len : Int) :
    (g.stored y v len).mem.load x = s.mem.load x := by
  rw [State.stored_mem, h.mem_eq, Memory.load_store hwf, if_neg hx]

/-- An instruction without a write operand leaves memory as it was (R85, R142). -/
theorem ExecCase.mem_eq (h : ExecCase s i t) (hi : i.opcode.format.writeOperand = none) : t.mem = s.mem := by
  cases h with
  | trap _ _ _ hg | output _ _ hg | jump _ _ _ hg | adjust _ _ hg => exact hg.mem_eq
  | store _ _ hf => simp [hf, Format.writeOperand] at hi
  | consume | suspend | latchHalt => cases hi
  | halt => rfl

/-- An instruction faults, or it leaves the fault record and either leaves `fsm`, halts, or blocks as an INPUT under `Blocking`
with an empty queue (R138, R162, R164, R201, R270). -/
theorem ExecCase.fsm_cases (h : ExecCase s i t) :
    t.fsm = .faulted ∨ (t.fault = s.fault ∧ (t.fsm = s.fsm ∨ t.fsm = .halted ∨
      (t.fsm = .blocked ∧ s.params.policy = .blocking ∧ s.inq = [] ∧ ∃ a, i = .input a))) := by
  cases h with
  | trap => exact .inl rfl
  | store _ _ _ hg | consume _ _ _ _ _ _ hg | output _ _ hg | jump _ _ _ hg | adjust _ _ hg =>
    exact .inr ⟨hg.fault_eq, .inl hg.fsm_eq⟩
  | suspend a hp hq => exact .inr ⟨rfl, .inr (.inr ⟨rfl, hp, hq, a, rfl⟩)⟩
  | latchHalt | halt => exact .inr ⟨rfl, .inr (.inl rfl)⟩

/-- OUTPUT retires, or it faults and leaves its queue and the latch (R171, R271). -/
theorem ExecCase.output_cases (h : ExecCase s (.output a) t) :
    t.pc = s.pc + 2 ∨ (t.fsm = .faulted ∧ t.outq = s.outq ∧ t.latch = s.latch) := by
  cases h with
  | trap _ _ _ hg => exact .inr ⟨rfl, hg.outq_eq, hg.latch_eq⟩
  | output => exact .inl rfl
  | store _ _ hi | jump _ _ hi => cases hi

/-- ADJUST-BASE retires, or it faults and leaves `rb` (R200, R271). -/
theorem ExecCase.adjustBase_cases (h : ExecCase s (.adjustBase a) t) :
    t.pc = s.pc + 2 ∨ (t.fsm = .faulted ∧ t.rb = s.rb) := by
  cases h with
  | trap _ _ _ hg => exact .inr ⟨rfl, hg.rb_eq⟩
  | adjust => exact .inl rfl
  | store _ _ hi | jump _ _ hi => cases hi

/-- INPUT under `Blocking` with an empty queue (R162). -/
theorem exec_input_starved (hp : s.params.policy = .blocking) (hq : s.inq = []) (a : Mode) :
    exec (.input a) s = .next s.suspend := by
  rw [exec, execInput, hp, hq]

/-- The format and the target of the four instructions that store what they compute. -/
theorem storing_format (hi : i ∈ [Instr.add a b c, .mul a b c, .lessThan a b c, .equals a b c]) (s : State) :
    i.opcode.format = .rrw ∧ s.storedAt i = s.target c (s.operandWord 3) := by
  simp only [List.mem_cons, List.not_mem_nil, or_false] at hi
  rcases hi with rfl | rfl | rfl | rfl <;> exact ⟨rfl, rfl⟩

/-! ## The step -/

/-- A word that does not decode is fault entry after the fetch (R132). -/
theorem step_of_illegal {cause : DecodeCause} (hr : s.fsm = .running) (hm : s.inMemory s.pc = true)
    (hd : decode (s.mem.load s.pc.toNat) = .illegal cause) :
    step s = .next (s.afterFault (.decode cause) none [s.pc.toNat]) := by
  rw [step_running hr, fetchDecode, memRead_ok hm, Reply.andThen, decodePhase, hd]
  exact finish_trap (as := [s.pc.toNat]) hm

/-- Where a step of a `Running` core takes `fsm`; it blocks only at an INPUT under `Blocking` with an empty queue (R215). -/
theorem StepCase.fsm_cases (h : StepCase s t) (hr : s.fsm = .running) :
    t.fsm = .faulted ∨ t.fsm = .running ∨ t.fsm = .halted ∨
      (t.fsm = .blocked ∧ s.params.policy = .blocking ∧ s.inq = [] ∧ ∃ a, s.holds (.input a)) := by
  rcases h.raised_or_executed with ⟨g, x, -, rfl⟩ | ⟨i, hi, hc⟩
  · exact .inl rfl
  rcases hc.fsm_cases with hf | ⟨-, hf | hf | ⟨hf, hp, hq, a, rfl⟩⟩
  · exact .inl hf
  · exact .inr (.inl (hf.trans hr))
  · exact .inr (.inr (.inl hf))
  · exact .inr (.inr (.inr ⟨hf, hp, hq, a, hi⟩))

/-! ## The host operations -/

/-- Every host operation is refused while the core is `Running` (R225). -/
theorem hostApply_running (o : HostOp) (hr : s.fsm = .running) : hostApply o s = .refused .whileRunning := by
  cases o with
  | reset | push | go => exact State.between_running _ hr
  | pop => rw [hostApply, State.pop, State.between_running _ hr, HostAnswer.andThen]
  | drain => rw [hostApply, State.drain, State.between_running _ hr, HostAnswer.andThen]
  | observe => rw [hostApply, State.observe, State.between_running _ hr, HostAnswer.andThen]

/-- Only `reset()` and the start of `run()` change `fsm` (R221 to R224). -/
theorem HostCase.fsm_eq {o : HostOp} (h : HostCase s o t) (ho : o ≠ .reset) (hgo : o ≠ .go) : t.fsm = s.fsm := by
  cases h with
  | reset => exact absurd rfl ho
  | start | noRun => exact absurd rfl hgo
  | push | pop | drain | observe => rfl

/-- The start of `run()` takes `Ready` and `Blocked` to `Running` (R212). -/
theorem HostCase.go_running (h : HostCase s .go t) (hf : s.fsm = .ready ∨ s.fsm = .blocked) :
    t = { s with fsm := .running } := by
  cases h with
  | start => rfl
  | noRun hn => rcases hf with hf | hf <;> simp [hf] at hn

/-- The start of `run()` changes nothing in `Halted` and `Faulted` (R213, R214). -/
theorem HostCase.go_ended (h : HostCase s .go t) (hf : s.fsm = .halted ∨ s.fsm = .faulted) : t = s := by
  cases h with
  | start hn => rcases hf with hf | hf <;> simp [hf] at hn
  | noRun => rfl

end Sys2Proof.Machine
end

-- The obligations about the dispatch step (41_dispatch_step.md)
section
/-! SUPPORT. The obligations about the step, its FSM, and the footprints of the instructions, from the lemmas above. -/

namespace Sys2Proof.Machine

/-- Settles O5: the fetch and the decode answer `i` in the grown state. -/
theorem stepRunsTheDecodedInstruction : Obligations.StepRunsTheDecodedInstruction :=
  fun _ _ => step_of_holds

/-- Settles O6: the trap of a negative address, raised where no word was fetched. -/
theorem fetchAtNegativeAddressFaults : Obligations.FetchAtNegativeAddressFaults := by
  intro s hr hpc
  have ht := State.addrTrap_negative s hpc
  rw [step_fetch_trap hr ht, State.raise_unfetched ht]

/-- Settles O7: the decode phase traps after the one access of the fetch. -/
theorem illegalWordFaultsBeforeOperands : Obligations.IllegalWordFaultsBeforeOperands :=
  fun _ _ => step_of_illegal

/-- Settles O8: a `Running` core's step is one of `StepCase`, any other core is idle. -/
theorem stepAlwaysAnswersNext : Obligations.StepAlwaysAnswersNext := by
  intro s
  by_cases hr : s.fsm = .running
  · obtain ⟨t, ht, -⟩ := step_cases hr
    exact ⟨t, ht⟩
  · exact ⟨s, step_idle hr⟩

/-- Settles O13: the policy and the queue are looked at before the operand. -/
theorem starvedInputOnlyBlocks : Obligations.StarvedInputOnlyBlocks :=
  fun _ a hp hq => exec_input_starved hp hq a

/-- Settles O24: the instruction faults after reads, or it stores to its target after reads. -/
theorem footprintOfStoringInstructions : Obligations.FootprintOfStoringInstructions := by
  intro s t a b c hwf i hi hs
  obtain ⟨hf, hat⟩ := storing_format hi s
  cases ExecCase.of_exec hs with
  | trap _ g x hg =>
    exact ⟨hg.rb_eq, hg.inq_eq, hg.outq_eq, hg.latch_eq, hg.params_eq, fun x _ => congrArg (·.load x) hg.mem_eq,
      .inr ⟨rfl, hg.pc_eq, hg.mem_eq⟩⟩
  | store _ g _ hg =>
    exact ⟨hg.rb_eq, hg.inq_eq, hg.outq_eq, hg.latch_eq, hg.params_eq, fun x hx => hg.stored_load hwf (hat ▸ hx) _ _,
      .inl ⟨hg.fsm_eq, hg.fault_eq, congrArg (· + 4) hg.pc_eq⟩⟩
  | jump _ _ hj => simp [hf] at hj
  | consume | suspend | latchHalt | output | adjust | halt => cases hf

/-- Settles O25: INPUT faults after reads, consumes, blocks at once or halts at once. -/
theorem footprintOfInput : Obligations.FootprintOfInput := by
  intro s t a hwf hs
  cases ExecCase.of_exec hs with
  | trap _ g x hg =>
    exact ⟨hg.rb_eq, hg.outq_eq, hg.latch_eq, hg.params_eq, fun x _ => congrArg (·.load x) hg.mem_eq,
      .inr ⟨.inl rfl, hg.pc_eq, hg.mem_eq, hg.inq_eq⟩⟩
  | consume _ g v rest _ hq hg =>
    exact ⟨hg.rb_eq, hg.outq_eq, hg.latch_eq, hg.params_eq, fun x hx => hg.stored_load hwf hx v 2,
      .inl ⟨hg.fsm_eq, hg.fault_eq, congrArg (· + 2) hg.pc_eq, by simp [hq], by simp [hq]⟩⟩
  | suspend => exact ⟨rfl, rfl, rfl, rfl, fun _ _ => rfl, .inr ⟨.inr ⟨rfl, .inr rfl⟩, rfl, rfl, rfl⟩⟩
  | latchHalt => exact ⟨rfl, rfl, rfl, rfl, fun _ _ => rfl, .inr ⟨.inr ⟨rfl, .inl rfl⟩, rfl, rfl, rfl⟩⟩
  | store _ _ hi | jump _ _ hi => cases hi

/-- Settles O26: no write operand, no INPUT, and only ADJUST-BASE moves `rb`, only OUTPUT its queue and the latch. -/
theorem footprintOfNonStoringInstructions : Obligations.FootprintOfNonStoringInstructions := by
  intro s t a b
  refine ⟨fun i hi hs => ?_, fun i hi hs => ?_, fun hs => ?_, fun hs => ?_, fun hs => ?_⟩
  · have h := ExecCase.of_exec hs
    obtain ⟨hw, hin⟩ : i.opcode.format.writeOperand = none ∧ ∀ a, i ≠ .input a := by
      simp only [List.mem_cons, List.not_mem_nil, or_false] at hi
      rcases hi with rfl | rfl | rfl | rfl | rfl <;> exact ⟨rfl, nofun⟩
    refine ⟨fun x => by rw [h.mem_eq hw], h.inq_cases.resolve_right fun ⟨_, a, _, ha⟩ => hin a ha, h.params_eq, ?_⟩
    rcases h.fsm_cases with hf | ⟨hf, hr | hh | ⟨-, -, -, a, ha⟩⟩
    · exact .inl hf
    · exact .inr ⟨hf, .inl hr⟩
    · exact .inr ⟨hf, .inr hh⟩
    · exact absurd ha (hin a)
  · have h := ExecCase.of_exec hs
    obtain ⟨hadj, hout⟩ : (∀ a, i ≠ .adjustBase a) ∧ ∀ a, i ≠ .output a := by
      simp only [List.mem_cons, List.not_mem_nil, or_false] at hi
      rcases hi with rfl | rfl | rfl <;> exact ⟨nofun, nofun⟩
    exact ⟨h.rb_cases.resolve_right fun ⟨a, ha, _⟩ => hadj a ha, h.outq_cases.resolve_right fun ⟨a, ha, _⟩ => hout a ha⟩
  · have h := ExecCase.of_exec hs
    exact ⟨h.rb_cases.resolve_right nofun, h.output_cases⟩
  · have h := ExecCase.of_exec hs
    obtain ⟨hq, hl⟩ := h.outq_cases.resolve_right nofun
    exact ⟨hq, hl, h.adjustBase_cases⟩
  · obtain rfl : s.halt = t := Host.Outcome.next.inj hs
    exact ⟨rfl, rfl⟩

/-- Settles O37: of the cases of a step only the starved INPUT blocks, and executing one does, as in O13. -/
theorem blockedOnlyByStarvedInput : Obligations.BlockedOnlyByStarvedInput := by
  intro s t hr hs
  constructor
  · intro hb
    simpa [hb] using (StepCase.of_step hr hs).fsm_cases hr
  · rintro ⟨hp, hq, a, hi⟩
    have hx := exec_input_starved (s := s.grow s.pc.toNat) hp hq a
    rw [step_of_holds hr hi, hx, Host.Outcome.next.injEq] at hs
    exact hs ▸ rfl

/-- Settles O39, by the cases of a step and of an accepted host operation. -/
theorem fsmFollowsItsTransitionTable : Obligations.FsmFollowsItsTransitionTable := by
  refine ⟨fun s t hs => ⟨fun hr => ?_, fun hr => ?_⟩, fun o s hr => hostApply_running o hr, fun s t h => ?_,
    fun s t h => ?_, fun o s t ho hgo h => (hostApply_accepted h).2.fsm_eq ho hgo⟩
  · rcases (StepCase.of_step hr hs).fsm_cases hr with hf | hf | hf | ⟨hf, -⟩ <;> simp [hf]
  · exact (step_idle_or_case hs).resolve_right fun h => hr h.1
  · have hgo := (State.go_accepted h).2
    exact ⟨fun hf => hgo.go_running (.inl hf), fun hf => hgo.go_running (.inr hf), fun hf => hgo.go_ended (.inl hf),
      fun hf => hgo.go_ended (.inr hf)⟩
  · cases (State.between_accepted h).2
    rfl

end Sys2Proof.Machine
end

-- The instructions that store what they compute (42_arithmetic.md)
section
/-! SUPPORT. The completion of a storing instruction whose operands resolve, and the obligation about ADD and MUL. -/

namespace Sys2Proof.Machine

/-- Where the operands resolve and `pc + 4` and the result are in the domain, an instruction of format `RRW` that computes `f` of
its two values stores the result and retires (R137, R142). -/
theorem operandsRRW_finish_store {s : State} {a b c : Mode} (f : Int → Int → Int) (h : s.resolvesRRW a b c)
    (hp : s.fits (s.pc + 4) = true)
    (hv : s.fits (f (s.value a (s.operandWord 1)) (s.value b (s.operandWord 2))) = true) :
    ((operandsRRW a b c s).finish fun v g => g.commitStore v.2.2 (f v.1 v.2.1)) =
      .next (s.afterStore a b c (f (s.value a (s.operandWord 1)) (s.value b (s.operandWord 2)))) := by
  obtain ⟨hf, ha, hb, hc, hw⟩ := h
  rw [operandsRRW_ok hf ha hb hc hw]
  exact commitStore_grown _ _ _ (State.fetchable_pc hf) hv hp

/-- Settles O9: the sum is that of `exec_add_stores`, and the product is stored in the same way. -/
theorem arithmeticStoresExactResult : Obligations.ArithmeticStoresExactResult :=
  fun _ _ _ _ h hp => ⟨exec_add_stores h hp rfl, operandsRRW_finish_store (· * ·) h hp⟩

end Sys2Proof.Machine
end

-- What the input and output instructions and the run of a waiting core need (43_io.md)
section
/-! SUPPORT. The commits of INPUT and OUTPUT where the limits allow them, the re-execution of a starved INPUT, and the run of one
core of a composition. -/

namespace Sys2Proof.Machine

variable {s t : State} {a : Mode} {st : Status} {fuel : Nat}

/-! ## Commits that the limits allow -/

/-- A commit that the limits allow is made (R137, R258). -/
theorem State.commit_allowed {ok : Bool} (h : ok = true) (t : State) : s.commit ok t = .next t := if_pos h

/-- The commit of an instruction that only retires, as a whole state (R137). -/
theorem State.retire_grown (as : List Nat) (p : Int) (h : s.inMemory s.pc = true) :
    (s.grown as).retire p = { s with pc := p, mlen := s.lengthAfter as, trace := s.traceAfter } := by
  rw [← State.trace_append h]
  rfl

/-- The halt of a core whose word was fetched, as a whole state (R164, R201). -/
theorem State.halt_fetched (h : s.inMemory s.pc = true) : s.halt = { s with fsm := .halted, trace := s.traceAfter } := by
  rw [← State.trace_append h]
  rfl

/-- INPUT under `Latch` (R164). -/
theorem exec_input_latch (hp : s.params.policy = .latch) (a : Mode) : exec (.input a) s = .next s.halt := by
  rw [exec, execInput, hp]

/-! ## A cell that holds an instruction has been reached -/

/-- A cell at or beyond `mlen` reads 0 (R25), which is no instruction. -/
theorem State.Inv.pc_lt_mlen {i : Instr} (h : s.Inv) (hi : s.holds i) : s.pc.toNat < s.mlen := by
  by_contra hlt
  have hd := hi.2
  rw [h.beyond_length _ (Nat.le_of_not_lt hlt)] at hd
  cases hd

theorem State.grow_of_lt {x : Nat} (h : x < s.mlen) : s.grow x = s := by
  rw [State.grow, Nat.max_eq_left h]

/-! ## The run of one core -/

/-- A core that waits to be started runs as `Running` (R212). -/
theorem State.run_start (h : s.fsm = .ready ∨ s.fsm = .blocked) (fuel : Nat) :
    s.run fuel = .accepted (runLoop fuel { s with fsm := .running }) := by
  rcases h with h | h <;> simp [State.run, State.go, State.between, HostAnswer.andThen, h]

/-- `run()` in `Halted` and `Faulted` returns at once (R213, R214). -/
theorem State.run_ended (h : s.fsm = .halted ∨ s.fsm = .faulted) (fuel : Nat) :
    ∃ st, s.run fuel = .accepted (.returned st s) := by
  have hgo : s.go = .accepted s := by rcases h with h | h <;> simp [State.go, State.between, h]
  obtain ⟨st, hst⟩ : ∃ st, s.fsm.status = some st := by rcases h with h | h <;> exact ⟨_, by rw [h]; rfl⟩
  exact ⟨st, by rw [State.run, hgo, HostAnswer.andThen, runLoop_ended hst]⟩

/-- A loop that is `Running` and has a step left takes it (R212). -/
theorem runLoop_step (hr : s.fsm = .running) (hs : step s = .next t) (fuel : Nat) : runLoop (fuel + 1) s = runLoop fuel t := by
  rw [runLoop, hr, Fsm.status, hs]

/-- A loop that returns, returns the status of the state it leaves (R216). -/
theorem runLoop_returned (h : runLoop fuel s = .returned st t) : t.fsm.status = some st := by
  induction fuel generalizing s with
  | zero =>
    unfold runLoop at h
    split at h
    · cases h; assumption
    · cases h
  | succ n ih =>
    unfold runLoop at h
    split at h
    · cases h; assumption
    · dsimp only at h
      split at h
      · exact ih h
      · cases h
      · cases h

theorem State.run_returned (h : s.run fuel = .accepted (.returned st t)) : t.fsm.status = some st := by
  rw [State.run] at h
  cases hg : s.go with
  | accepted u => rw [hg] at h; exact runLoop_returned (HostAnswer.accepted.inj h)
  | refused r => rw [hg] at h; cases h

/-- A starved INPUT whose word the core has fetched before only blocks; the store does not grow either (R162). -/
theorem step_starved (hr : s.fsm = .running) (hi : s.holds (.input a)) (hl : s.pc.toNat < s.mlen)
    (hp : s.params.policy = .blocking) (hq : s.inq = []) : step s = .next s.suspend := by
  rw [step_of_holds hr hi, State.grow_of_lt hl, exec_input_starved hp hq]

/-- A `Blocked` core with an empty queue, started again, is back where it was after one step (R163). -/
theorem State.Inv.step_blocked (h : s.Inv) (hf : s.fsm = .blocked) (hq : s.inq = []) :
    step { s with fsm := .running } = .next s := by
  obtain ⟨hp, a, hi⟩ := h.blocked_at hf
  rw [step_starved (s := { s with fsm := .running }) rfl hi (h.pc_lt_mlen hi) hp hq, State.suspend, ← hf]

/-- A run of one step that leaves a waiting core `Blocked` has found its queue empty (R162). -/
theorem State.inq_nil_of_run_blocked (hf : s.fsm = .blocked) (h : s.run 1 = .accepted (.returned st t))
    (ht : t.fsm = .blocked) : s.inq = [] := by
  obtain ⟨u, hu, hc⟩ := step_cases (s := { s with fsm := .running }) rfl
  rw [State.run_start (.inr hf), runLoop_step rfl hu] at h
  have hus : u.fsm.status ≠ none := fun hn => by
    rw [runLoop, hn] at h
    cases h
  obtain ⟨v, hv⟩ := Option.ne_none_iff_exists'.1 hus
  rw [runLoop_ended hv] at h
  obtain rfl : u = t := by cases h; rfl
  rcases hc.fsm_cases rfl with hx | hx | hx | ⟨-, -, hq, -⟩
  · simp [hx] at ht
  · simp [hx] at ht
  · simp [hx] at ht
  · exact hq

/-! ## The run of one core of a composition -/

variable {n n' : Net} {k : Nat} {d : Node}

theorem Net.runCore_returned (hw : n.wired = true) (hd : n.nodes[k]? = some d)
    (h : (n.view d).run fuel = .accepted (.returned st t)) : n.runCore k fuel = .done (st, n.putBack k d t) := by
  simp only [Net.runCore, Net.atCore_wired hw hd, h]
  rfl

/-- A run that is done has returned, and its core is put back. -/
theorem Net.runCore_done (h : n.runCore k fuel = .done (st, n')) :
    ∃ d t, n.nodes[k]? = some d ∧ (n.view d).run fuel = .accepted (.returned st t) ∧ n' = n.putBack k d t := by
  obtain ⟨-, d, t, hd, hr, rfl⟩ := Net.atCore_done h
  refine ⟨d, t, hd, ?_, rfl⟩
  split at hr <;> cases hr
  assumption

/-- A core whose putting back changes nothing is in the FSM state it was in. -/
theorem Net.fsm_of_putBack_eq (hd : n.nodes[k]? = some d) (h : n.putBack k d t = n) : t.fsm = d.core.fsm := by
  obtain ⟨hlt, -⟩ := List.getElem?_eq_some_iff.1 hd
  have hk : (n.putBack k d t).nodes[k]? = some { d with core := { t with inq := [], outq := [] } } :=
    List.getElem?_set_self hlt
  rw [h, hd, Option.some.injEq] at hk
  rw [hk]

/-- R240's condition, as a proposition about each core. -/
theorem Net.deadlocked_iff : n.deadlocked = true ↔ ∀ d ∈ n.nodes,
    (d.core.fsm = .halted ∨ d.core.fsm = .faulted) ∨ (d.core.fsm = .blocked ∧ n.fifo d.inFifo = []) := by
  simp [Net.deadlocked]

end Sys2Proof.Machine
end

-- The input and output instructions (43_io.md)
section
/-! SUPPORT. The obligations about INPUT, OUTPUT and the deadlock of a composition, from the lemmas above. -/

namespace Sys2Proof.Machine

/-- Settles O14: the policy is looked at first, and the halt adds the one trace entry. -/
theorem latchInputHalts : Obligations.LatchInputHalts := by
  intro s a hp hm
  rw [exec_input_latch hp, State.halt_fetched hm]

/-- Settles O12: the target resolves and the store is committed, or the target's address traps before anything is popped. -/
theorem inputConsumesTheOldestValue : Obligations.InputConsumesTheOldestValue := by
  intro s a v rest hp hq
  rw [exec_input_consumes hp hq, consumeInput]
  constructor
  · rintro ⟨hf, ha, hw⟩ hv hpc
    rw [operandsW_ok hf ha hw]
    refine (State.commit_allowed (Bool.and_eq_true_iff.2 ⟨hv, hpc⟩) _).trans ?_
    rw [State.stored_grown _ _ _ _ (State.fetchable_pc hf)]
  · intro x hf hx
    rw [operandsW_trap hf (resolveWrite_negative hx)]
    exact finish_trap (State.fetchable_pc hf)

/-- Settles O15: the operand resolves, and the limits allow the commit. -/
theorem outputAppendsAndLatches : Obligations.OutputAppendsAndLatches := by
  rintro s a ⟨hf, ha⟩ hroom hpc
  rw [exec, execOutput, operandsR_ok hf ha]
  refine (State.commit_allowed (Bool.and_eq_true_iff.2 ⟨hroom, hpc⟩) _).trans ?_
  rw [State.retire_grown _ _ (State.fetchable_pc hf)]
  rfl

/-- Settles O48: the first step executes the starved INPUT again, and the loop ends with it. -/
theorem blockedRunIsIdempotent : Obligations.BlockedRunIsIdempotent := by
  intro s fuel h hf hq
  rw [State.run_start (.inr hf), runLoop_step rfl (h.step_blocked hf hq), runLoop_ended (st := .blocked) (by rw [hf]; rfl)]

/-- Settles O51: a core that has ended returns at once and a starved one by O48; in the other direction a run of one step that
changes nothing returns the core's own status, and a `Blocked` core returns `Blocked` only from an empty queue. -/
theorem deadlockIsExactlyNoProgress : Obligations.DeadlockIsExactlyNoProgress := by
  intro n hw hinv
  rw [Net.deadlocked_iff]
  constructor
  · intro hdead k hk fuel
    have hd : n.nodes[k]? = some n.nodes[k] := List.getElem?_eq_getElem hk
    have hmem := List.getElem_mem hk
    obtain ⟨st, hrun⟩ : ∃ st, (n.view n.nodes[k]).run (fuel + 1) = .accepted (.returned st (n.view n.nodes[k])) := by
      rcases hdead _ hmem with he | ⟨hb, hq⟩
      · exact State.run_ended (s := n.view _) he _
      · exact ⟨_, blockedRunIsIdempotent _ fuel (hinv _ hmem) hb hq⟩
    exact ⟨st, by rw [Net.runCore_returned hw hd hrun, Net.putBack_view hw hd]⟩
  · intro hstuck d hmem
    obtain ⟨k, hk, rfl⟩ := List.getElem_of_mem hmem
    obtain ⟨st, hdone⟩ := hstuck k hk 0
    obtain ⟨d, t, hd, hrun, hput⟩ := Net.runCore_done hdone
    obtain rfl : n.nodes[k] = d := Option.some.inj ((List.getElem?_eq_getElem hk).symm.trans hd)
    have hfsm := Net.fsm_of_putBack_eq hd hput.symm
    have hst := State.run_returned hrun
    rw [hfsm] at hst
    cases hf : n.nodes[k].core.fsm with
    | ready | running => rw [hf] at hst; cases hst
    | halted => exact .inl (.inl rfl)
    | faulted => exact .inl (.inr rfl)
    | blocked => exact .inr ⟨rfl, State.inq_nil_of_run_blocked (s := n.view _) hf hrun (hfsm.trans hf)⟩

end Sys2Proof.Machine
end

-- The jumps (44_jumps.md)
section
/-! SUPPORT. The completion of a jump whose operands resolve, and the obligation about its four outcomes. -/

namespace Sys2Proof.Machine

open Sys2Proof.Claims

variable {s : State} {a b : Mode} {i : Instr}

/-- Where the operands resolve, a jump that goes to a `p` in the domain completes there (R137, R142). -/
theorem exec_jump_completes {p : Int} (h : s.resolvesRR a b) (hi : i ∈ [Instr.jumpIfTrue a b, .jumpIfFalse a b])
    (hto : s.jumpsTo i = p) (hp : s.fits p = true) : exec i s = .next (afterJump s a b p) := by
  rw [exec_jump_resolved h hi, hto]
  exact commitJump_grown _ p (State.fetchable_pc h.1) hp

/-- Settles O11: the condition's value says where each jump goes, and both places are in the domain. -/
theorem jumpsGoByTheirCondition : Obligations.JumpsGoByTheirCondition := by
  intro s a b h hnext htarget
  have hT : Instr.jumpIfTrue a b ∈ [Instr.jumpIfTrue a b, .jumpIfFalse a b] := by simp
  have hF : Instr.jumpIfFalse a b ∈ [Instr.jumpIfTrue a b, .jumpIfFalse a b] := by simp
  refine ⟨fun hz => ⟨?_, ?_⟩, fun hz => ⟨?_, ?_⟩⟩
  · exact exec_jump_completes h hT (State.jumpsTo_fallThrough hT (by simp [hz])) hnext
  · exact exec_jump_completes h hF (State.jumpsTo_target hF (by simp [hz])) htarget
  · exact exec_jump_completes h hT (State.jumpsTo_target hT (by simp [hz])) htarget
  · exact exec_jump_completes h hF (State.jumpsTo_fallThrough hF (by simp [hz])) hnext

end Sys2Proof.Machine
end

-- The comparisons (45_compare.md)
section
/-! SUPPORT. The cells of the comparisons by the relation of the two values, their completion, and the obligation about them. -/

namespace Sys2Proof.Machine

variable {s : State} {a b c : Mode} {x y v : Int}

/-! ## The table of R192 -/

theorem lessCell_of_lt (h : x < y) : lessCell x y = 1 := by
  rw [lessCell, cellOfBool_decide, if_pos h]

theorem lessCell_of_le (h : y ≤ x) : lessCell x y = 0 := by
  rw [lessCell, cellOfBool_decide, if_neg (Int.not_lt.2 h)]

theorem equalCell_of_eq (h : x = y) : equalCell x y = 1 := by
  rw [equalCell, cellOfBool_decide, if_pos h]

theorem equalCell_of_ne (h : x ≠ y) : equalCell x y = 0 := by
  rw [equalCell, cellOfBool_decide, if_neg h]

/-! ## The completion -/

/-- Where the operands resolve, LESS-THAN stores its cell and retires (R190, R137). -/
theorem exec_lessThan_stores (h : s.resolvesRRW a b c) (hp : s.fits (s.pc + 4) = true) (hv : s.fits v = true)
    (hcell : lessCell (s.value a (s.operandWord 1)) (s.value b (s.operandWord 2)) = v) :
    exec (.lessThan a b c) s = .next (s.afterStore a b c v) := by
  subst hcell
  exact operandsRRW_finish_store lessCell h hp hv

/-- Where the operands resolve, EQUALS stores its cell and retires (R191, R137). -/
theorem exec_equals_stores (h : s.resolvesRRW a b c) (hp : s.fits (s.pc + 4) = true) (hv : s.fits v = true)
    (hcell : equalCell (s.value a (s.operandWord 1)) (s.value b (s.operandWord 2)) = v) :
    exec (.equals a b c) s = .next (s.afterStore a b c v) := by
  subst hcell
  exact operandsRRW_finish_store equalCell h hp hv

/-- Settles O10: each relation of the two values is one row of R192's table, and the row's cells are stored. -/
theorem comparisonStoresZeroOrOne : Obligations.ComparisonStoresZeroOrOne := by
  intro s a b c h hp h0 h1
  refine ⟨fun hlt => ⟨?_, ?_⟩, fun heq => ⟨?_, ?_⟩, fun hgt => ⟨?_, ?_⟩⟩
  · exact exec_lessThan_stores h hp h1 (lessCell_of_lt hlt)
  · exact exec_equals_stores h hp h0 (equalCell_of_ne hlt.ne)
  · exact exec_lessThan_stores h hp h0 (lessCell_of_le heq.ge)
  · exact exec_equals_stores h hp h1 (equalCell_of_eq heq)
  · exact exec_lessThan_stores h hp h0 (lessCell_of_le hgt.le)
  · exact exec_equals_stores h hp h0 (equalCell_of_ne hgt.ne')

end Sys2Proof.Machine
end

-- ADJUST-BASE, HALT and the ways to halt (46_base_halt.md)
section
/-! SUPPORT. The reserved digits of a word ending in 99, the instructions that halt, and the obligations about ADJUST-BASE, HALT
and the end of a run. -/

namespace Sys2Proof

/-- HALT's word has no operands, so in a longer word ending in 99 some digit above the opcode is set, and reserved (R91). -/
theorem reservedDigitSet_halt {n : Nat} (ho : digs n 1 0 = Opcode.halt.number) (hn : n ≠ 99) :
    reservedDigitSet Opcode.halt.format n = true := by
  by_contra hr
  rw [Bool.not_eq_true] at hr
  have hzero : ∀ k ∈ [1, 2, 3], modeDigit n k = 0 := fun k hk =>
    (modeDigit_checked hr rfl hk).2 (Nat.pos_of_ne_zero fun h0 => by simp [h0] at hk)
  have hsum := sum_of_digits (div_eq_zero_of_reservedDigitSet hr)
  rw [ho, hzero 1 (by simp), hzero 2 (by simp), hzero 3 (by simp)] at hsum
  exact hn hsum

/-- The words ending in 99: HALT's own, and those with a reserved digit set (R91, R201). -/
theorem decode_ending_99 {n : Nat} (ho : digs n 1 0 = Opcode.halt.number) :
    decode (n : Int) = if n = 99 then .instr .halt else .illegal .reservedDigit := by
  split_ifs with hn
  · subst hn
    decide
  · rw [decode_natCast ho, decodeFields, if_pos (reservedDigitSet_halt ho hn)]

end Sys2Proof

namespace Sys2Proof.Machine

variable {s t : State} {i : Instr}

/-- Of the instructions of a `Running` core, HALT and, under `Latch`, INPUT are the only ones that can halt it (R202). -/
theorem ExecCase.halted_cases (h : ExecCase s i t) (hr : s.fsm = .running) (hh : t.fsm = .halted) :
    i = .halt ∨ (s.params.policy = .latch ∧ ∃ a, i = .input a) := by
  cases h with
  | halt => exact .inl rfl
  | latchHalt a hp => exact .inr ⟨hp, a, rfl⟩
  | trap | suspend => cases hh
  | store _ _ _ hg | consume _ _ _ _ _ _ hg | output _ _ hg | jump _ _ _ hg | adjust _ _ hg =>
    simp [hg.fsm_eq, hr] at hh

/-- A step that halts a `Running` core executes HALT or, under `Latch`, INPUT (R202). -/
theorem StepCase.halted_cases (h : StepCase s t) (hr : s.fsm = .running) (hh : t.fsm = .halted) :
    s.holds .halt ∨ (s.params.policy = .latch ∧ ∃ a, s.holds (.input a)) := by
  rcases h.raised_or_executed with ⟨g, x, -, rfl⟩ | ⟨i, hi, hc⟩
  · cases hh
  · rcases hc.halted_cases hr hh with rfl | ⟨hp, a, rfl⟩
    · exact .inl hi
    · exact .inr ⟨hp, a, hi⟩

/-- The word 0 is no instruction, so a step at a cell that holds it faults, whether or not the word can be fetched (R88, R131). -/
theorem StepCase.faulted_of_zero (h : StepCase s t) (hz : s.mem.load s.pc.toNat = 0) : t.fsm = .faulted := by
  rcases h.raised_or_executed with ⟨g, x, -, rfl⟩ | ⟨i, ⟨-, hd⟩, -⟩
  · rfl
  · rw [hz] at hd
    cases hd

/-- Settles O16: the operand is read with the old `rb`, and the limits allow the commit. -/
theorem adjustBaseAddsItsValue : Obligations.AdjustBaseAddsItsValue := by
  rintro s a ⟨hf, ha⟩ hrb hpc
  rw [exec, execAdjustBase, operandsR_ok hf ha]
  refine (State.commit_allowed (Bool.and_eq_true_iff.2 ⟨hrb, hpc⟩) _).trans ?_
  rw [State.retire_grown _ _ (State.fetchable_pc hf)]
  rfl

/-- Settles O17: HALT is the halt of a core whose word was fetched, and the words ending in 99 are those of
`decode_ending_99`. -/
theorem haltStopsAtItsWord : Obligations.HaltStopsAtItsWord := by
  refine ⟨fun s hm => ?_, fun w hw h99 => ?_⟩
  · rw [exec, execHalt, State.halt_fetched hm]
  · lift w to Nat using hw with n
    rw [emod_hundred_natCast] at h99
    rw [decode_ending_99 (by exact_mod_cast h99)]
    norm_cast

/-- Settles O36: `StepCase.halted_cases` in one direction, the execution of the instruction at `pc` in the other. -/
theorem haltedOnlyByHaltOrLatchInput : Obligations.HaltedOnlyByHaltOrLatchInput := by
  intro s t hr hs
  have hc := StepCase.of_step hr hs
  refine ⟨⟨hc.halted_cases hr, ?_⟩, hc.faulted_of_zero⟩
  rintro (hi | ⟨hp, a, hi⟩)
  · rw [step_of_holds hr hi, exec, execHalt, Host.Outcome.next.injEq] at hs
    exact hs ▸ rfl
  · rw [step_of_holds hr hi, exec_input_latch (s := s.grow s.pc.toNat) hp, Host.Outcome.next.injEq] at hs
    exact hs ▸ rfl

end Sys2Proof.Machine
end

-- What the host operations answer, and the reset of one core (47_run_loop_host.md, 70_reset_and_hazards.md)
section
/-! SUPPORT. The exact answer of each host operation of one core between runs, of `run()` on a core that has ended, and of
construction with an image that was accepted. -/

namespace Sys2Proof.Machine

variable {s t : State} {st : Status} {vs : List Int}

/-- Between runs `reset()` is accepted, whatever the core did (R294, R295). -/
theorem State.hostReset_idle (hr : s.fsm ≠ .running) : s.hostReset = .accepted (State.initial s.params) :=
  State.between_idle _ hr

/-- Nothing limits a push into a core without limits (R222). -/
theorem State.push_unbounded (hr : s.fsm ≠ .running) (hu : s.unbounded) (vs : List Int) :
    s.push vs = .accepted { s with inq := s.inq ++ vs } := by
  obtain ⟨hw, -, hd, -⟩ := hu
  have hfits : vs.all s.fits = true := List.all_eq_true.2 fun v _ => by simp only [State.fits, Params.fits, hw]
  rw [State.push, State.between_idle _ hr, hfits, hd]
  rfl

/-- A push that is accepted appends its values and does nothing else (R222). -/
theorem State.eq_of_push_accepted (h : s.push vs = .accepted t) : t = { s with inq := s.inq ++ vs } := by
  cases (State.push_accepted h).2
  rfl

theorem State.pop_idle (hr : s.fsm ≠ .running) : s.pop = .accepted (s.outq.head?, { s with outq := s.outq.tail }) :=
  State.between_idle _ hr

theorem State.drain_idle (hr : s.fsm ≠ .running) : s.drain = .accepted (s.outq, { s with outq := [] }) :=
  State.between_idle _ hr

/-- The status that `run()` returns on a core that has ended is the core's own (R213, R214). -/
theorem State.run_ended_status (h : s.fsm = .halted ∨ s.fsm = .faulted) (hst : s.fsm.status = some st) (fuel : Nat) :
    s.run fuel = .accepted (.returned st s) := by
  obtain ⟨st', hrun⟩ := State.run_ended h fuel
  obtain rfl : st' = st := Option.some.inj ((State.run_returned hrun).symm.trans hst)
  exact hrun

/-- `run(new_input)` after a push that is accepted is `run()` with the values at the back of the queue (R211). -/
theorem State.runWith_pushed (h : s.push vs = .accepted t) (fuel : Nat) :
    s.runWith vs fuel = State.run { s with inq := s.inq ++ vs } fuel := by
  rw [State.runWith, h, State.eq_of_push_accepted h]
  rfl

/-- Construction accepts what passes its checks (R5, R290): the converse of `State.construct_accepted`. -/
theorem State.construct_eq {p : Params} {seed : List Int} (hw : p.width ≠ some 0) (hi : ∀ v ∈ p.image, p.fits v = true)
    (hs : ∀ v ∈ seed, p.fits v = true) (hc : withinCap p.memCap p.image.length = true)
    (hd : withinCap p.inDepth seed.length = true) :
    State.construct p seed = .accepted { State.initial p with inq := seed } := by
  rw [State.construct, if_neg hw, List.all_eq_true.2 hi, List.all_eq_true.2 hs, hc, hd]
  rfl

/-- The parameters of a core that meets the invariant were accepted once, and without a seed they are accepted again. -/
theorem State.Inv.construct_params (h : s.Inv) : State.construct s.params [] = .accepted (State.initial s.params) :=
  State.construct_eq h.width_pos h.image_fits (by simp) h.image_cap (withinCap_mono h.inq_depth (Nat.zero_le _))

end Sys2Proof.Machine
end

-- The obligations about the host operations and the reset (47_run_loop_host.md, 70_reset_and_hazards.md)
section
/-! SUPPORT. The obligations about the host operations and the reset of one core, from the lemmas above. -/

namespace Sys2Proof.Machine

/-- Settles O44: reset and construction without a seed both give `State.initial`, and its memory is that of the image. -/
theorem resetRestoresTheImage : Obligations.ResetRestoresTheImage := fun s h hr =>
  ⟨State.initial s.params, State.hostReset_idle hr, h.construct_params, Memory.load_ofImage _,
    rfl, rfl, rfl, rfl, rfl, rfl, rfl, rfl, rfl, rfl⟩

/-- Settles O45: what reset leaves depends on the parameters alone, which reset and construction hand on. -/
theorem resetIsIdempotent : Obligations.ResetIsIdempotent := by
  refine ⟨fun s hr => ⟨_, State.hostReset_idle hr⟩, fun s t h => ?_, fun p seed s h => ?_⟩
  · obtain ⟨-, ht⟩ := State.between_accepted h
    cases ht
    exact State.hostReset_idle (s := State.initial s.params) nofun
  · obtain ⟨-, -, -, -, -, rfl⟩ := State.construct_accepted h
    exact State.hostReset_idle (s := { State.initial p with inq := seed }) nofun

/-- Settles O46: the operations as they answer between runs, with the two cases of the queue that a pop meets. -/
theorem hostTouchesOnlyTheQueues : Obligations.HostTouchesOnlyTheQueues := by
  refine ⟨fun s t vs => State.eq_of_push_accepted, fun s vs hr hu => State.push_unbounded hr hu vs, fun s hr hq => ?_,
    fun s v rest hr hq => ?_, fun s hr => State.drain_idle hr, fun s t h => ?_⟩
  · rw [State.pop_idle hr, hq, List.head?_nil, List.tail_nil, ← hq]
  · rw [State.pop_idle hr, hq, List.head?_cons, List.tail_cons]
  · cases (hostApply_accepted h).2
    rfl

/-- Settles O47: an accepted push leaves `fsm` as it was, so the run after it finds the core ended too. -/
theorem endedCoreIgnoresRun : Obligations.EndedCoreIgnoresRun := by
  have hrun : ∀ (s : State) (fuel : Nat),
      (s.fsm = .halted → s.run fuel = .accepted (.returned .halted s)) ∧
      (s.fsm = .faulted → s.run fuel = .accepted (.returned .faulted s)) := fun s fuel =>
    ⟨fun hf => State.run_ended_status (.inl hf) (by rw [hf]; rfl) fuel,
      fun hf => State.run_ended_status (.inr hf) (by rw [hf]; rfl) fuel⟩
  refine ⟨hrun, fun s t vs fuel h => ?_⟩
  rw [State.runWith_pushed h]
  exact hrun { s with inq := s.inq ++ vs } fuel

end Sys2Proof.Machine
end

-- What joining and the operations on a composition answer (47_run_loop_host.md)
section
/-! SUPPORT. A second party of a FIFO is no legal wiring, what joining accepts, what every operation that is done keeps, and the
host's access to the outer and the inner FIFOs. -/

namespace Sys2Proof.Machine

variable {n n' : Net} {k : Nat} {d : Node} {α : Type}

/-! ## Second parties -/

/-- In a list without repeats under `f`, one place holds the value of `f` (R238). -/
theorem index_eq_of_nodup_map {f : Node → Nat} {nodes : List Node} (h : (nodes.map f).Nodup) {i j : Nat} {d e : Node}
    (hd : nodes[i]? = some d) (he : nodes[j]? = some e) (hf : f d = f e) : i = j := by
  obtain ⟨hi, -⟩ := List.getElem?_eq_some_iff.1 hd
  refine (List.getElem?_inj (by simpa using hi) h).1 ?_
  rw [List.getElem?_map, List.getElem?_map, hd, he, Option.map_some, Option.map_some, hf]

/-- A FIFO with a second producer or a second consumer is no legal wiring (R238, R304). -/
theorem Net.wired_eq_false_of_twoParties (h : Claims.twoParties n.nodes) : n.wired = false := by
  obtain ⟨i, j, d, e, hij, hd, he, hf⟩ := h
  rw [← Bool.not_eq_true, Net.wired, Bool.and_eq_true, Bool.and_eq_true, distinct_iff_nodup, distinct_iff_nodup]
  rintro ⟨⟨-, hin⟩, hout⟩
  rcases hf with hf | hf
  · exact hij (index_eq_of_nodup_map hin hd he hf)
  · exact hij (index_eq_of_nodup_map hout hd he hf)

theorem Net.fromOutput_unwired (h : n.wired = false) (k : Nat) (f : State → HostAnswer (α × State)) :
    n.fromOutput k f = .refused .badWiring :=
  Net.atCore_unwired h k _

/-- Handing over the queues changes no FIFO number. -/
theorem twoParties_map_joined {nodes : List Node} (h : Claims.twoParties nodes) :
    Claims.twoParties (nodes.map Node.joined) := by
  obtain ⟨i, j, d, e, hij, hd, he, hf⟩ := h
  exact ⟨i, j, d.joined, e.joined, hij, by rw [List.getElem?_map, hd]; rfl, by rw [List.getElem?_map, he]; rfl, hf⟩

/-! ## Joining -/

/-- What joining accepts is wired, and holds the cores it was given (R236, R238). -/
theorem Net.wire_done {nodes : List Node} {count : Nat} (h : Net.wire nodes count = .done n) :
    n.wired = true ∧ n.nodes = nodes.map Node.joined := by
  simp only [Net.wire] at h
  split at h
  · cases h
  split at h
  · next hw =>
    cases h
    exact ⟨hw, rfl⟩
  · cases h

theorem topology_of_nodes_joined {nodes : List Node} (h : n.nodes = nodes.map Node.joined) :
    n.topology = nodes.map fun d => (d.inFifo, d.outFifo) := by
  rw [Net.topology, h, List.map_map]
  rfl

/-! ## What every operation keeps -/

/-- An operation that is done leaves the wiring legal and the topology as it was (R236). -/
theorem Net.atCore_keeps_topology {f : Node → State → NetAnswer (α × State)} {a : α} (h : n.atCore k f = .done (a, n')) :
    n'.wired = true ∧ n'.topology = n.topology ∧ n'.fifos.length = n.fifos.length := by
  obtain ⟨hw, d, t, hd, -, rfl⟩ := Net.atCore_done h
  exact ⟨Net.putBack_wired hw hd t, Net.putBack_topology hd t, Net.putBack_fifos_length n k d t⟩

theorem Net.fromOutput_keeps_topology {f : State → HostAnswer (α × State)} {a : α} (h : n.fromOutput k f = .done (a, n')) :
    n'.wired = true ∧ n'.topology = n.topology ∧ n'.fifos.length = n.fifos.length :=
  Net.atCore_keeps_topology h

/-- An operation that answers the composition alone was done with some value. -/
theorem NetAnswer.map_snd_done {h : NetAnswer (α × Net)} (hm : h.map Prod.snd = .done n') : ∃ a, h = .done (a, n') := by
  obtain ⟨⟨a, m⟩, hd, rfl⟩ := NetAnswer.map_done hm
  exact ⟨a, hd⟩

/-! ## The host at the outer and the inner FIFOs -/

/-- A list of FIFO numbers holds `x` exactly when some core is attached to `x`. -/
theorem contains_map_iff {f : Node → Nat} {nodes : List Node} {x : Nat} :
    (nodes.map f).contains x = true ↔ ∃ e ∈ nodes, f e = x := by
  rw [List.contains_iff_mem, List.mem_map]

/-- A push into a FIFO that no core produces to is the core's own push (R222, R243). -/
theorem Net.pushInput_outer (hw : n.wired = true) (hd : n.nodes[k]? = some d) (hfree : ∀ e ∈ n.nodes, e.outFifo ≠ d.inFifo)
    {vs : List Int} {t : State} (h : (n.view d).push vs = .accepted t) : n.pushInput k vs = .done (n.putBack k d t) := by
  have hc : ¬ (n.nodes.map Node.outFifo).contains d.inFifo = true := fun hc => by
    obtain ⟨e, he, heq⟩ := contains_map_iff.1 hc
    exact hfree e he heq
  rw [Net.pushInput, Net.atCore_wired hw hd, if_neg hc, h]
  rfl

/-- A FIFO that a core produces to has its producer (R238). -/
theorem Net.pushInput_inner (hw : n.wired = true) (hd : n.nodes[k]? = some d) (h : ∃ e ∈ n.nodes, e.outFifo = d.inFifo)
    (vs : List Int) : n.pushInput k vs = .refused .secondParty := by
  rw [Net.pushInput, Net.atCore_wired hw hd, if_pos (contains_map_iff.2 h)]
  rfl

/-- What the host takes from a FIFO that no core consumes from, it takes from the core's own output (R223, R243). -/
theorem Net.fromOutput_outer (hw : n.wired = true) (hd : n.nodes[k]? = some d) (hfree : ∀ e ∈ n.nodes, e.inFifo ≠ d.outFifo)
    {f : State → HostAnswer (α × State)} {a : α} {t : State} (h : f (n.view d) = .accepted (a, t)) :
    n.fromOutput k f = .done (a, n.putBack k d t) := by
  have hc : ¬ (n.nodes.map Node.inFifo).contains d.outFifo = true := fun hc => by
    obtain ⟨e, he, heq⟩ := contains_map_iff.1 hc
    exact hfree e he heq
  rw [Net.fromOutput, Net.atCore_wired hw hd, if_neg hc, h]
  rfl

/-- A FIFO that a core consumes from has its consumer (R238). -/
theorem Net.fromOutput_inner (hw : n.wired = true) (hd : n.nodes[k]? = some d) (h : ∃ e ∈ n.nodes, e.inFifo = d.outFifo)
    (f : State → HostAnswer (α × State)) : n.fromOutput k f = .refused .secondParty := by
  rw [Net.fromOutput, Net.atCore_wired hw hd, if_pos (contains_map_iff.2 h)]
  rfl

/-- A core put back with another input queue changes that FIFO alone. -/
theorem Net.putBack_inq (hw : n.wired = true) (hd : n.nodes[k]? = some d) (q : List Int) :
    n.putBack k d { n.view d with inq := q } = { n with fifos := n.fifos.set d.inFifo q } := by
  obtain ⟨-, -, hne, -⟩ := Net.wired_node hw (List.mem_of_getElem? hd)
  have h := Net.putBack_queues hw hd q (n.fifo d.outFifo)
  rwa [List.set_comm _ _ hne, Net.fifo_set_self] at h

/-- A core put back with another output queue changes that FIFO alone. -/
theorem Net.putBack_outq (hw : n.wired = true) (hd : n.nodes[k]? = some d) (o : List Int) :
    n.putBack k d { n.view d with outq := o } = { n with fifos := n.fifos.set d.outFifo o } := by
  have h := Net.putBack_queues hw hd (n.fifo d.inFifo) o
  rwa [Net.fifo_set_self] at h

end Sys2Proof.Machine
end

-- The obligations about compositions (47_run_loop_host.md)
section
/-! SUPPORT. The obligations about the wiring of a composition and the host's access to it, from the lemmas above. -/

namespace Sys2Proof.Machine

/-- Settles O54: such a composition is not wired, and every operation and joining ask for the wiring. -/
theorem secondProducerOrConsumerIsRefused : Obligations.SecondProducerOrConsumerIsRefused := by
  refine ⟨fun n h k fuel vs => ?_, fun nodes count h n hdone => ?_⟩
  · have hw := Net.wired_eq_false_of_twoParties h
    refine ⟨Net.atCore_unwired hw k _, ?_, ?_, Net.fromOutput_unwired hw k _, Net.fromOutput_unwired hw k _,
      Net.atCore_unwired hw k _⟩
    · rw [Net.resetCore, Net.atCore_unwired hw, NetAnswer.map]
    · rw [Net.pushInput, Net.atCore_unwired hw, NetAnswer.map]
  · obtain ⟨hw, hnodes⟩ := Net.wire_done hdone
    rw [Net.wired_eq_false_of_twoParties (hnodes ▸ twoParties_map_joined h)] at hw
    cases hw

/-- Settles O55: joining checks the wiring and keeps the FIFO numbers, and every operation is one of `Net.atCore`. -/
theorem topologyNeverChanges : Obligations.TopologyNeverChanges := by
  refine ⟨fun nodes count n h => ?_, fun n n' k fuel vs h => ?_⟩
  · obtain ⟨hw, hnodes⟩ := Net.wire_done h
    exact ⟨hw, topology_of_nodes_joined hnodes⟩
  · rcases h with ⟨_, hrun⟩ | hreset | hpush | ⟨_, hpop⟩ | ⟨_, hdrain⟩ | ⟨_, hobserve⟩
    · exact Net.atCore_keeps_topology hrun
    · obtain ⟨_, h⟩ := NetAnswer.map_snd_done hreset
      exact Net.atCore_keeps_topology h
    · obtain ⟨_, h⟩ := NetAnswer.map_snd_done hpush
      exact Net.atCore_keeps_topology h
    · exact Net.fromOutput_keeps_topology hpop
    · exact Net.fromOutput_keeps_topology hdrain
    · exact Net.atCore_keeps_topology hobserve

/-- Settles O56: at an outer FIFO the operation is that of the core alone, and the core is put back with one queue changed. -/
theorem hostReachesOnlyOuterFifos : Obligations.HostReachesOnlyOuterFifos := by
  intro n k d hw hd
  refine ⟨fun hfree hr hu vs => ?_, fun hfree hr => ⟨?_, ?_⟩, Net.pushInput_inner hw hd,
    fun h => ⟨Net.fromOutput_inner hw hd h _, Net.fromOutput_inner hw hd h _⟩⟩
  · rw [Net.pushInput_outer hw hd hfree (State.push_unbounded (s := n.view d) hr hu vs), Net.putBack_inq hw hd]
    rfl
  · rw [Net.popOutput, Net.fromOutput_outer hw hd hfree (State.pop_idle (s := n.view d) hr), Net.putBack_outq hw hd]
    rfl
  · rw [Net.drainOutput, Net.fromOutput_outer hw hd hfree (State.drain_idle (s := n.view d) hr), Net.putBack_outq hw hd]
    rfl

end Sys2Proof.Machine
end
